-- ==== Sys2Proof/Word.lean ====
section
/-! DEFINITION. The word of the block: `XLEN` = 32 bits, the width of every general register, of every register of the
window and of a command word (spec/00_scope.md R5, R7). -/

namespace Sys2Proof

/-- A 32-bit word (R5, `XLEN`, `CMDLEN`). -/
abbrev Word := BitVec 32

/-- A register number: `NREG` = 16 general registers (R5, R21). -/
abbrev Reg := Fin 16

end Sys2Proof
end

