-- ==== Sys2Proof/Syntax.lean ====
section
/-! DEFINITION. The eleven commands of the block (spec/30_encoding.md R84), one constructor per row of
spec/opcode_table.json, in the table's order. -/

namespace Sys2Proof

/-- A command (R84). A register field is a number 0..15, all of them legal (R89). The immediate of `SETDEG` is the natural
that the spec reads from the 12-bit field (R83); `WellFormed` says that it fits the field (log 15). -/
inductive Instr
  /-- `SETDEG imm` (R100). -/
  | setdeg (imm : Nat)
  /-- `ADD rd, rs1, rs2` (R112). -/
  | add (rd rs1 rs2 : Reg)
  /-- `MUL rd, rs1, rs2` (R126). -/
  | mul (rd rs1 rs2 : Reg)
  /-- `POW rd, rs1, rs2` (R141). -/
  | pow (rd rs1 rs2 : Reg)
  /-- `INV rd, rs1` (R154). -/
  | inv (rd rs1 : Reg)
  /-- `BITLEN rd, rs1` (R111). -/
  | bitlen (rd rs1 : Reg)
  /-- `CLMUL rd, rs1, rs2` (R123). -/
  | clmul (rd rs1 rs2 : Reg)
  /-- `CLMULH rd, rs1, rs2` (R124). -/
  | clmulh (rd rs1 rs2 : Reg)
  /-- `PRED rd, rs1, rs2` (R125). -/
  | pred (rd rs1 rs2 : Reg)
  /-- `PDIV rd, rs1, rs2` (R151). -/
  | pdiv (rd rs1 rs2 : Reg)
  /-- `PREM rd, rs1, rs2` (R152). -/
  | prem (rd rs1 rs2 : Reg)
  deriving DecidableEq, Repr

end Sys2Proof
end

