-- ==== Sys2Proof/WellFormed.lean ====
section
/-! DEFINITION. Which terms of `Instr` are commands (spec/30_encoding.md R83, R89). -/

namespace Sys2Proof

/-- The immediate of `SETDEG` fits its 12-bit field, 0..4095 (R83). -/
abbrev immFits (imm : Nat) : Prop := imm < 4096

/-- A command whose fields are in range. Register numbers are in range by their type (R89), so the one check is the
immediate's. -/
@[simp] abbrev Instr.WellFormed : Instr → Prop
  | .setdeg imm => immFits imm
  | .add _ _ _ => True
  | .mul _ _ _ => True
  | .pow _ _ _ => True
  | .inv _ _ => True
  | .bitlen _ _ => True
  | .clmul _ _ _ => True
  | .clmulh _ _ _ => True
  | .pred _ _ _ => True
  | .pdiv _ _ _ => True
  | .prem _ _ _ => True

/-- The same as a test. -/
def Instr.wellFormed : Instr → Bool
  | .setdeg imm => decide (immFits imm)
  | .add _ _ _ => true
  | .mul _ _ _ => true
  | .pow _ _ _ => true
  | .inv _ _ => true
  | .bitlen _ _ => true
  | .clmul _ _ _ => true
  | .clmulh _ _ _ => true
  | .pred _ _ _ => true
  | .pdiv _ _ _ => true
  | .prem _ _ _ => true

end Sys2Proof
end

