-- ==== Sys2Proof/Decode.lean ====
section
/-! DEFINITION. Decoding and encoding of command words (spec/30_encoding.md R80 to R92). -/

namespace Sys2Proof

/-! ## The fields of a command word (R81) -/

/-- Bits 31:24. -/
def fieldOpcode (w : Word) : BitVec 8 := w.extractLsb' 24 8

/-- Bits 23:20. -/
def fieldRd (w : Word) : Reg := (w.extractLsb' 20 4).toFin

/-- Bits 19:16. -/
def fieldRs1 (w : Word) : Reg := (w.extractLsb' 16 4).toFin

/-- Bits 15:12. -/
def fieldRs2 (w : Word) : Reg := (w.extractLsb' 12 4).toFin

/-- Bits 11:0. -/
def fieldImm (w : Word) : BitVec 12 := w.extractLsb' 0 12

/-! ## Decoding (R92) -/

/-- Why a word is no command. Both end with `ILLEGAL_COMMAND`. -/
inductive Illegal
  /-- The opcode is not in the map (R85). -/
  | unassignedOpcode
  /-- A field that the format does not use is not zero (R86). -/
  | nonzeroUnusedField
  deriving DecidableEq, Repr

/-- What `decode` answers (R92): a command, or that the word is illegal. -/
inductive Decoded
  | cmd (i : Instr)
  | illegal (why : Illegal)
  deriving DecidableEq, Repr

/-- Format `I` (R82): only the opcode and `imm12` are used. -/
def decodeI (c : Nat → Instr) (w : Word) : Decoded :=
  if fieldRd w = 0 ∧ fieldRs1 w = 0 ∧ fieldRs2 w = 0 then .cmd (c (fieldImm w).toNat) else .illegal .nonzeroUnusedField

/-- Format `R3` (R82): `imm12` must be zero. -/
def decodeR3 (c : Reg → Reg → Reg → Instr) (w : Word) : Decoded :=
  if fieldImm w = 0 then .cmd (c (fieldRd w) (fieldRs1 w) (fieldRs2 w)) else .illegal .nonzeroUnusedField

/-- Format `R2` (R82): `rs2` and `imm12` must be zero. -/
def decodeR2 (c : Reg → Reg → Instr) (w : Word) : Decoded :=
  if fieldRs2 w = 0 ∧ fieldImm w = 0 then .cmd (c (fieldRd w) (fieldRs1 w)) else .illegal .nonzeroUnusedField

/-- `decode(w)`, total (R92; opcodes R84). -/
def decode (w : Word) : Decoded :=
  match (fieldOpcode w).toNat with
  | 0x01 => decodeI .setdeg w
  | 0x10 => decodeR3 .add w
  | 0x11 => decodeR3 .mul w
  | 0x12 => decodeR3 .pow w
  | 0x13 => decodeR2 .inv w
  | 0x20 => decodeR2 .bitlen w
  | 0x21 => decodeR3 .clmul w
  | 0x22 => decodeR3 .clmulh w
  | 0x23 => decodeR3 .pred w
  | 0x24 => decodeR3 .pdiv w
  | 0x25 => decodeR3 .prem w
  | _ => .illegal .unassignedOpcode

/-! ## Encoding (R81, R82, R84) -/

/-- `w = (opcode << 24) OR (rd << 20) OR (rs1 << 16) OR (rs2 << 12) OR imm12` (R81). -/
def packFields (opcode : Nat) (rd rs1 rs2 : Reg) (imm : Nat) : Word :=
  (BitVec.ofNat 32 opcode <<< 24) ||| (BitVec.ofNat 32 rd.val <<< 20) ||| (BitVec.ofNat 32 rs1.val <<< 16) |||
    (BitVec.ofNat 32 rs2.val <<< 12) ||| BitVec.ofNat 32 imm

/-- The word of a command (R84). -/
def encode : Instr → Word
  | .setdeg imm => packFields 0x01 0 0 0 imm
  | .add rd rs1 rs2 => packFields 0x10 rd rs1 rs2 0
  | .mul rd rs1 rs2 => packFields 0x11 rd rs1 rs2 0
  | .pow rd rs1 rs2 => packFields 0x12 rd rs1 rs2 0
  | .inv rd rs1 => packFields 0x13 rd rs1 0 0
  | .bitlen rd rs1 => packFields 0x20 rd rs1 0 0
  | .clmul rd rs1 rs2 => packFields 0x21 rd rs1 rs2 0
  | .clmulh rd rs1 rs2 => packFields 0x22 rd rs1 rs2 0
  | .pred rd rs1 rs2 => packFields 0x23 rd rs1 rs2 0
  | .pdiv rd rs1 rs2 => packFields 0x24 rd rs1 rs2 0
  | .prem rd rs1 rs2 => packFields 0x25 rd rs1 rs2 0

/-! ## The opcode map as the spec tabulates it (R84) -/

/-- The three formats (R82). -/
inductive Format
  | i
  | r3
  | r2
  deriving DecidableEq, Repr

/-- A row of the opcode map: a word w encodes the command exactly when `(w AND mask) = value` (R84). -/
structure OpcodeRow where
  mnemonic : String
  format : Format
  value : Word
  mask : Word
  deriving DecidableEq, Repr

/-- The mnemonic of a command in the opcode map (R84). -/
def mnemonic : Instr → String
  | .setdeg _ => "SETDEG"
  | .add _ _ _ => "ADD"
  | .mul _ _ _ => "MUL"
  | .pow _ _ _ => "POW"
  | .inv _ _ => "INV"
  | .bitlen _ _ => "BITLEN"
  | .clmul _ _ _ => "CLMUL"
  | .clmulh _ _ _ => "CLMULH"
  | .pred _ _ _ => "PRED"
  | .pdiv _ _ _ => "PDIV"
  | .prem _ _ _ => "PREM"

/-- The opcode map (R84), row for row. -/
def opcodeTable : List OpcodeRow :=
  [ ⟨"SETDEG", .i, 0x01000000, 0xFFFFF000⟩,
    ⟨"ADD", .r3, 0x10000000, 0xFF000FFF⟩,
    ⟨"MUL", .r3, 0x11000000, 0xFF000FFF⟩,
    ⟨"POW", .r3, 0x12000000, 0xFF000FFF⟩,
    ⟨"INV", .r2, 0x13000000, 0xFF00FFFF⟩,
    ⟨"BITLEN", .r2, 0x20000000, 0xFF00FFFF⟩,
    ⟨"CLMUL", .r3, 0x21000000, 0xFF000FFF⟩,
    ⟨"CLMULH", .r3, 0x22000000, 0xFF000FFF⟩,
    ⟨"PRED", .r3, 0x23000000, 0xFF000FFF⟩,
    ⟨"PDIV", .r3, 0x24000000, 0xFF000FFF⟩,
    ⟨"PREM", .r3, 0x25000000, 0xFF000FFF⟩ ]

/-! ## The decoder as the host asks it -/

/-- The command in a table word of `nbits` bits; the bits above `nbits` are 0. A number that needs more than the one
32-bit word of a command (R80) is no command (log 16). -/
def decodeTableWord (nbits w : Nat) : Option Instr :=
  if w % 2 ^ nbits < 2 ^ 32 then
    match decode (BitVec.ofNat 32 (w % 2 ^ nbits)) with
    | .cmd i => some i
    | .illegal _ => none
  else none

end Sys2Proof
end

