-- ==== Sys2Proof/Config.lean ====
section
/-! DEFINITION. The parameters of the block (spec/00_scope.md R5): the fixed ones with their value, and the two OPEN ones,
`BASE` and `IRRED`, as free constants with no body. -/

namespace Sys2Proof.Config

/-- `MAXDEG` (R5): the largest field degree. -/
@[simp] def maxDeg : Nat := 24

/-- `WINDOW` (R5, R50): the size of the register window in bytes. -/
@[simp] def windowBytes : Nat := 0x100

/-- The free value behind the OPEN table `IRRED` (R5, R23; 92_eei_decisions.md D25): any function from degrees to naturals.
`Sys2Proof.Machine.irred` takes its entries wherever they meet the constraints of R23 and R24 (log 3). -/
opaque irredFree : Nat → Nat

/-- The free value behind the OPEN parameter `BASE` (R5, R50), in words (log 4). -/
opaque baseWords : Nat

/-- `BASE`: the bus address of the window, a multiple of 4 (R50). No rule depends on its value. -/
def base : Nat := 4 * baseWords

end Sys2Proof.Config
end

