-- ==== Sys2Proof/Machine/Gf2.lean ====
section
/-! DEFINITION. The arithmetic of the block as functions on naturals (spec/00_scope.md R6, R7): a polynomial over GF(2) is
a natural whose bit i is the coefficient of x^i. None of these functions ever truncates. A `while` loop of the spec is a
recursion on a bound of its number of passes, which the spec shows (R204); the loop ends by its own condition before the
bound runs out wherever the spec defines the function (log 6). -/

namespace Sys2Proof.Gf2

/-- `bitlen` (R110): 0 for 0, else 1 + the position of the highest set bit. `Nat.log2` is the exact integer position of
the highest set bit, no floating point (R9, R114). -/
def bitlen (v : Nat) : Nat := if v = 0 then 0 else 1 + Nat.log2 v

/-- The loop of `clmul` (R120) from bit `i` on, with accumulator `r`. -/
def clmulLoop (a b : Nat) : Nat → Nat → Nat → Nat
  | 0, _, r => r
  | passes + 1, i, r =>
    if b >>> i = 0 then r
    else clmulLoop a b passes (i + 1) (if b.testBit i then r ^^^ (a <<< i) else r)

/-- `clmul` (R120): the carry-less product, in `bitlen(b)` passes. -/
def clmul (a b : Nat) : Nat := clmulLoop a b (bitlen b) 0 0

/-- The loop of `polyrem` (R121). -/
def polyremLoop (p : Nat) : Nat → Nat → Nat
  | 0, r => r
  | passes + 1, r =>
    if bitlen p ≤ bitlen r then polyremLoop p passes (r ^^^ (p <<< (bitlen r - bitlen p))) else r

/-- `polyrem` (R121): the remainder of r by p, for p not 0. -/
def polyrem (r p : Nat) : Nat := polyremLoop p (bitlen r) r

/-- `mult` (R122): field multiplication, product then reduction. -/
def mult (a b p : Nat) : Nat := polyrem (clmul a b) p

/-- `pot` (R140): start from 1 and multiply by a, n times. -/
def pot (a : Nat) : Nat → Nat → Nat
  | 0, _ => 1
  | n + 1, p => mult (pot a n p) a p

/-- Square and multiply over the bits of n, lowest first. -/
def potSquaringLoop (p : Nat) : Nat → Nat → Nat → Nat → Nat
  | 0, acc, _, _ => acc
  | passes + 1, acc, square, n =>
    if n = 0 then acc
    else potSquaringLoop p passes (if n % 2 = 1 then mult acc square p else acc) (mult square square p) (n / 2)

/-- The value of `pot` by squaring, which R143 allows a model to compute (log 7). -/
def potSquaring (a n p : Nat) : Nat := potSquaringLoop p (bitlen n) 1 a n

/-- The loop of `polydivmod` (R150) with quotient `c` and working value `d`. -/
def polydivmodLoop (p : Nat) : Nat → Nat → Nat → Nat × Nat
  | 0, c, d => (c, d)
  | passes + 1, c, d =>
    if bitlen p ≤ bitlen d then
      polydivmodLoop p passes (c ||| (1 <<< (bitlen d - bitlen p))) (d ^^^ (p <<< (bitlen d - bitlen p)))
    else (c, d)

/-- `polydivmod` (R150): quotient and remainder of n by p, for p not 0. -/
def polydivmod (n p : Nat) : Nat × Nat := polydivmodLoop p (bitlen n) 0 n

/-- The loop of `inv_eea` (R153); the two pairs are rotated at once. -/
def invEeaLoop : Nat → Nat → Nat → Nat → Nat → Nat × Nat
  | 0, _, r1, _, s1 => (s1, r1)
  | passes + 1, r0, r1, s0, s1 =>
    match polydivmod r0 r1 with
    | (c, d) => if d = 0 then (s1, r1) else invEeaLoop passes r1 d s1 (clmul c s1 ^^^ s0)

/-- `inv_eea` (R153): the candidate inverse and the gcd, in at most `bitlen(p)` passes (R155). -/
def invEea (a p : Nat) : Nat × Nat := invEeaLoop (bitlen p) a p 1 0

end Sys2Proof.Gf2
end

