-- ==== Sys2Proof/Machine/Irred.lean ====
section
/-! DEFINITION. The table `IRRED` of irreducible polynomials (spec/10_state.md R23 to R25), an OPEN parameter: whatever the
free constant `Config.irredFree` holds, within the constraints the spec sets (log 3). -/

namespace Sys2Proof.Machine

open Sys2Proof.Gf2

/-- No factor of degree 1 .. m-1 over GF(2), for p of degree m: no polynomial from x up to below 2^m divides p (R23). -/
def isIrreducible (p : Nat) : Bool :=
  (List.range (2 ^ (bitlen p - 1))).all fun f => decide (f < 2) || polyrem p f != 0

/-- What R23 and R24 ask of `IRRED[m]`. -/
def legalEntry (m v : Nat) : Bool :=
  bitlen v == m + 1 && isIrreducible v && (m != 4 || v == 0x13)

/-- The example table of 93_implementation_defined.md item G1. Only a degree at which the free constant holds no legal
entry reads it, so it fixes nothing about a legal table (log 3). -/
def exampleEntry : Nat → Nat
  | 1 => 0x3
  | 2 => 0x7
  | 3 => 0xB
  | 4 => 0x13
  | 5 => 0x25
  | 6 => 0x43
  | 7 => 0x83
  | 8 => 0x11B
  | 9 => 0x203
  | 10 => 0x409
  | 11 => 0x805
  | 12 => 0x1009
  | 13 => 0x201B
  | 14 => 0x4021
  | 15 => 0x8003
  | 16 => 0x1002B
  | 17 => 0x20009
  | 18 => 0x40009
  | 19 => 0x80027
  | 20 => 0x100009
  | 21 => 0x200005
  | 22 => 0x400003
  | 23 => 0x800021
  | 24 => 0x100001B
  | _ => 0

/-- The table that a free function stands for: the two forced entries (R24, R25), and elsewhere the free value where it is
legal. Every legal table is the table of some free function, namely of itself. -/
def irredOf (free : Nat → Nat) (m : Nat) : Nat :=
  match m with
  | 2 => 0x7
  | 4 => 0x13
  | m => if legalEntry m (free m) then free m else exampleEntry m

/-- `IRRED[m]` (R23). -/
def irred (m : Nat) : Nat := irredOf Config.irredFree m

end Sys2Proof.Machine
end

