-- ==== Sys2Proof/Machine/State.lean ====
section
/-! DEFINITION. The state of the machine: the whole architectural state of the block (spec/10_state.md R20), and beside it
the host's side of a run, the actions still to be served and the responses given (spec/70_reset_and_hazards.md R207). -/

namespace Sys2Proof.Machine

/-- The values of `STATUS.ERR` that are ever produced (R26, R171; 93_implementation_defined.md V7; log 5). Their codes are
`errCode` in Machine/Flags.lean. -/
inductive ErrCode
  /-- Every command that ends without error. -/
  | ok
  /-- SETDEG with an immediate outside 1..24. -/
  | invalidDegree
  /-- POW with bit 31 of the exponent set. -/
  | negativeExponent
  /-- ADD, MUL, POW, INV or PRED while no field exists. -/
  | noField
  /-- PDIV or PREM by the zero polynomial. -/
  | divideByZero
  /-- A word that is no legal command. -/
  | illegalCommand
  deriving DecidableEq, Repr

/-- An action of the host (20_memory.md section 2; R200, R207). The data of a write of `n` bytes is a natural below
2^(8n) (log 11). -/
inductive HostAction
  /-- `MemRead(off, n)`. -/
  | memRead (off : Fin 256) (n : Nat)
  /-- `MemWrite(off, n, v)`. -/
  | memWrite (off : Fin 256) (n : Nat) (v : Nat)
  /-- `RESET`. -/
  | reset
  deriving DecidableEq, Repr

/-- The response to a transaction (20_memory.md section 2). -/
inductive Response
  /-- A read that is accepted. -/
  | data (v : Word)
  /-- A write that is accepted. -/
  | done
  /-- A transaction that the block does not accept (R55). -/
  | busError
  deriving DecidableEq, Repr

/-- The state. -/
structure State where
  /-- The general registers `x[0]` to `x[15]` (R21). -/
  x : Vector Word 16
  /-- `FV`, field valid (R22). -/
  fv : Bool
  /-- `DEGREE` (R22). -/
  degree : BitVec 5
  /-- `ORDER` (R22). -/
  order : BitVec 25
  /-- `MODULUS` (R22). -/
  modulus : BitVec 25
  /-- `STATUS.ERR` (R26). -/
  err : ErrCode
  /-- `STATUS.DI`, degenerate inverse (R26). -/
  di : Bool
  /-- `GCD` (R28). -/
  gcd : BitVec 25
  /-- The model's own: the host actions still to be served, first to come first (R186, R207; log 1). -/
  pending : List HostAction
  /-- The model's own: the responses given so far, oldest first (R207; log 1). -/
  responses : List Response
  deriving DecidableEq, Repr

/-- The reasons to stop with a fault: none. Every command ends (R204), an error is written to `STATUS` (R174), a refused
transaction is answered `BusError` (R55), so nothing raises a fault. -/
inductive Fault
  deriving DecidableEq, Repr

/-- The reasons to refuse. -/
inductive Refusal
  /-- Raised by an arm of `exec` whose command has no meaning yet. Safe: the model stops. No arm raises it now. -/
  | notModelled (mnemonic : String)
  deriving DecidableEq, Repr

/-- The state after reset (R33): every register 0, no field, `STATUS` 0, `GCD` 0. Nothing is pending and no response has
been given (log 1). -/
def State.reset : State where
  x := Vector.replicate 16 0
  fv := false
  degree := 0
  order := 0
  modulus := 0
  err := .ok
  di := false
  gcd := 0
  pending := []
  responses := []

end Sys2Proof.Machine
end

