-- ==== Sys2Proof/Machine/Ops.lean ====
section
/-! DEFINITION. The named operations on the state that the commands share (spec/60_exceptions.md R170, R174). -/

namespace Sys2Proof.Machine

/-- What a command or a step answers. -/
abbrev Result := Host.Outcome State Fault Refusal

/-- `x[r]` (R8, R21). -/
def readReg (s : State) (r : Reg) : Word := s.x[r]

/-- `x[r] <- v` (R8, R21): no register is hardwired. -/
def writeReg (r : Reg) (v : Word) (s : State) : State := { s with x := s.x.set r v }

/-- `raise E`, exactly (R174): this is all that taking an error does, and there is no return from it (R175, R176). -/
def raise (e : ErrCode) (s : State) : State := { s with err := e, di := false }

/-- The last step of a command that ends without error (R170 step 7). -/
def succeed (degenerate : Bool) (s : State) : State := { s with err := .ok, di := degenerate }

/-- Steps 6 and 7 of R170 for a command that writes a general register and nothing else: the value is the natural `v`,
below 2^32 wherever R7 says so (log 18). -/
def complete (rd : Reg) (v : Nat) (s : State) : State := succeed false (writeReg rd (BitVec.ofNat 32 v) s)

/-- The construction of the field of degree m (R100): the whole record at once. -/
def buildField (m : Nat) (s : State) : State :=
  { s with fv := true, degree := BitVec.ofNat 5 m, order := BitVec.ofNat 25 (2 ^ m), modulus := BitVec.ofNat 25 (irred m) }

/-- `GCD <- g` (R28, R154). -/
def writeGcd (g : Nat) (s : State) : State := { s with gcd := BitVec.ofNat 25 g }

/-- Step 3 of R170: a command that needs a field ends with `NO_FIELD` while none exists. -/
def withField (k : State → Result) (s : State) : Result :=
  if s.fv then k s else .next (raise .noField s)

/-- The response to the transaction being served is added to the observations of the run (R207). -/
def respond (r : Response) (s : State) : State := { s with responses := s.responses ++ [r] }

/-- The reset of the block (R200): every piece of the block's state takes its reset value. The host's own list and what it
has observed are no state of the block and stay (log 8). -/
def resetBlock (s : State) : State := { State.reset with pending := s.pending, responses := s.responses }

end Sys2Proof.Machine
end

