-- ==== Sys2Proof/Machine/Flags.lean ====
section
/-! DEFINITION. The status word and its two flags (spec/10_state.md R26; 60_exceptions.md R171). -/

namespace Sys2Proof.Machine

/-- The code of an outcome in `STATUS.ERR` (R171). -/
def errCode : ErrCode → BitVec 4
  | .ok => 0
  | .invalidDegree => 1
  | .negativeExponent => 2
  | .noField => 3
  | .divideByZero => 4
  | .illegalCommand => 5

/-- A flag as a word of one bit. -/
def flagWord (b : Bool) : Word := if b then 1 else 0

/-- `STATUS` as the host reads it: `ERR OR (DI << 4) OR (FV << 8)` (R53, R26). -/
def statusWord (s : State) : Word :=
  (errCode s.err).zeroExtend 32 ||| (flagWord s.di <<< 4) ||| (flagWord s.fv <<< 8)

/-- `STATUS.DI` after an INV that ends with gcd g: 1 exactly when g is not 1 (R154). -/
def degenerateFlag (g : Nat) : Bool := g != 1

end Sys2Proof.Machine
end

