-- ==== Sys2Proof/Machine/Operands.lean ====
section
/-! DEFINITION. The operand forms of the commands (spec/00_scope.md R7; 43_power.md R141; 42_multiply.md R123 to R125). -/

namespace Sys2Proof.Machine

/-- A source register as the natural it holds (R7). -/
def natOperand (s : State) (r : Reg) : Nat := (readReg s r).toNat

/-- The exponent operand of POW: `sext_32(x[r])` (R141). -/
def exponentOperand (s : State) (r : Reg) : Int := (readReg s r).toInt

/-- The 64-bit operand of PRED: `(x[hi] << 32) OR x[lo]` (R125). -/
def wideOperand (s : State) (hi lo : Reg) : Nat := (natOperand s hi <<< 32) ||| natOperand s lo

/-- `MODULUS` as the natural it holds (R22). -/
def modulusOperand (s : State) : Nat := s.modulus.toNat

/-- `v[31:0]` (R8, R123). -/
def lowHalf (v : Nat) : Nat := v % 2 ^ 32

/-- `v[63:32]` (R8, R124). -/
def highHalf (v : Nat) : Nat := (v >>> 32) % 2 ^ 32

end Sys2Proof.Machine
end

