-- ==== Sys2Proof/Machine/EngineCommands.lean ====
section
/-! DEFINITION. The engine-level commands BITLEN, CLMUL, CLMULH, PRED, PDIV and PREM (spec/41_bitlen_add.md,
42_multiply.md, 44_division_inverse.md). -/

namespace Sys2Proof.Machine

open Sys2Proof.Gf2

/-- `BITLEN rd, rs1` (R111). -/
def execBitlen (rd rs1 : Reg) (s : State) : Result :=
  .next (complete rd (bitlen (natOperand s rs1)) s)

/-- `CLMUL rd, rs1, rs2` (R123): bits 31:0 of the product. -/
def execClmul (rd rs1 rs2 : Reg) (s : State) : Result :=
  .next (complete rd (lowHalf (clmul (natOperand s rs1) (natOperand s rs2))) s)

/-- `CLMULH rd, rs1, rs2` (R124): bits 63:32 of the product. -/
def execClmulh (rd rs1 rs2 : Reg) (s : State) : Result :=
  .next (complete rd (highHalf (clmul (natOperand s rs1) (natOperand s rs2))) s)

/-- `PRED rd, rs1, rs2` (R125): `rs1` holds the upper and `rs2` the lower half. -/
def execPred (rd rs1 rs2 : Reg) (s : State) : Result :=
  withField (fun s => .next (complete rd (polyrem (wideOperand s rs1 rs2) (modulusOperand s)) s)) s

/-- The check of the two division commands (R170 step 4): a zero divisor ends with `DIVIDE_BY_ZERO`. -/
def withDivisor (rs2 : Reg) (k : State → Result) (s : State) : Result :=
  if natOperand s rs2 = 0 then .next (raise .divideByZero s) else k s

/-- `PDIV rd, rs1, rs2` (R151). -/
def execPdiv (rd rs1 rs2 : Reg) (s : State) : Result :=
  withDivisor rs2 (fun s => .next (complete rd (polydivmod (natOperand s rs1) (natOperand s rs2)).1 s)) s

/-- `PREM rd, rs1, rs2` (R152). -/
def execPrem (rd rs1 rs2 : Reg) (s : State) : Result :=
  withDivisor rs2 (fun s => .next (complete rd (polydivmod (natOperand s rs1) (natOperand s rs2)).2 s)) s

end Sys2Proof.Machine
end

