-- ==== Sys2Proof/Machine/FieldCommands.lean ====
section
/-! DEFINITION. The field-level commands SETDEG, ADD, MUL, POW and INV (spec/40_field_construction.md, 41_bitlen_add.md,
42_multiply.md, 43_power.md, 44_division_inverse.md). -/

namespace Sys2Proof.Machine

open Sys2Proof.Gf2

/-- `SETDEG imm` (R100, R101). -/
def execSetdeg (imm : Nat) (s : State) : Result :=
  if imm < 1 ∨ Config.maxDeg < imm then .next (raise .invalidDegree s)
  else .next (succeed false (buildField imm s))

/-- `ADD rd, rs1, rs2` (R112): all 32 bits, no reduction. -/
def execAdd (rd rs1 rs2 : Reg) (s : State) : Result :=
  withField (fun s => .next (complete rd (natOperand s rs1 ^^^ natOperand s rs2) s)) s

/-- `MUL rd, rs1, rs2` (R126). -/
def execMul (rd rs1 rs2 : Reg) (s : State) : Result :=
  withField (fun s => .next (complete rd (mult (natOperand s rs1) (natOperand s rs2) (modulusOperand s)) s)) s

/-- `POW rd, rs1, rs2` (R141): no field before negative exponent (R173). The power is computed by squaring, which gives the
value of `pot` (R143; log 7). -/
def execPow (rd rs1 rs2 : Reg) (s : State) : Result :=
  withField (fun s =>
    if exponentOperand s rs2 < 0 then .next (raise .negativeExponent s)
    else .next (complete rd (potSquaring (natOperand s rs1) (exponentOperand s rs2).toNat (modulusOperand s)) s)) s

/-- The writes of an INV whose algorithm returned (v, g) (R154). -/
def completeInv (rd : Reg) (vg : Nat × Nat) (s : State) : State :=
  succeed (degenerateFlag vg.2) (writeGcd vg.2 (writeReg rd (BitVec.ofNat 32 vg.1) s))

/-- `INV rd, rs1` (R154): the inverse of zero is no error; it writes 0, the gcd and `DI`. -/
def execInv (rd rs1 : Reg) (s : State) : Result :=
  withField (fun s => .next (completeInv rd (invEea (natOperand s rs1) (modulusOperand s)) s)) s

end Sys2Proof.Machine
end

