-- ==== Sys2Proof/Machine/Dispatch.lean ====
section
/-! DEFINITION. The meaning of every command, one arm each. -/

namespace Sys2Proof.Machine

def exec (i : Instr) (s : State) : Host.Outcome State Fault Refusal :=
  match i with
  | .setdeg imm => Sys2Proof.Machine.execSetdeg imm s
  | .add rd rs1 rs2 => Sys2Proof.Machine.execAdd rd rs1 rs2 s
  | .mul rd rs1 rs2 => Sys2Proof.Machine.execMul rd rs1 rs2 s
  | .pow rd rs1 rs2 => Sys2Proof.Machine.execPow rd rs1 rs2 s
  | .inv rd rs1 => Sys2Proof.Machine.execInv rd rs1 s
  | .bitlen rd rs1 => Sys2Proof.Machine.execBitlen rd rs1 s
  | .clmul rd rs1 rs2 => Sys2Proof.Machine.execClmul rd rs1 rs2 s
  | .clmulh rd rs1 rs2 => Sys2Proof.Machine.execClmulh rd rs1 rs2 s
  | .pred rd rs1 rs2 => Sys2Proof.Machine.execPred rd rs1 rs2 s
  | .pdiv rd rs1 rs2 => Sys2Proof.Machine.execPdiv rd rs1 rs2 s
  | .prem rd rs1 rs2 => Sys2Proof.Machine.execPrem rd rs1 rs2 s

end Sys2Proof.Machine
end

