-- ==== Sys2Proof/Machine/Window.lean ====
section
/-! DEFINITION. The register window (spec/20_memory.md R50 to R58): its map, the words the host reads, and the byte lanes. -/

namespace Sys2Proof.Machine

/-- A register of the window (R51). -/
inductive WindowReg
  | x (r : Reg)
  | cmd
  | status
  | degree
  | order
  | modulus
  | gcd
  deriving DecidableEq, Repr

/-- The address map (R51): the register at an aligned mapped offset; none at any other (R52, R58). -/
def windowReg (off : Nat) : Option WindowReg :=
  if off % 4 = 0 then
    if off ≤ 0x3C then some (.x (Fin.ofNat 16 (off / 4)))
    else match off with
      | 0x40 => some .cmd
      | 0x44 => some .status
      | 0x48 => some .degree
      | 0x4C => some .order
      | 0x50 => some .modulus
      | 0x54 => some .gcd
      | _ => none
  else none

/-- The word of a readable register (R53); `CMD` is write only (R29). -/
def windowWord (s : State) : WindowReg → Option Word
  | .x r => some (readReg s r)
  | .cmd => none
  | .status => some (statusWord s)
  | .degree => some (s.degree.zeroExtend 32)
  | .order => some (s.order.zeroExtend 32)
  | .modulus => some (s.modulus.zeroExtend 32)
  | .gcd => some (s.gcd.zeroExtend 32)

/-- The response to `MemRead(off, n)` (R52, R53, R55). -/
def busRead (off n : Nat) (s : State) : Response :=
  if n = 4 then
    match (windowReg off).bind (windowWord s) with
    | some v => .data v
    | none => .busError
  else .busError

/-- The byte at `off + k` carries bits `8k+7 : 8k` of the word (R57). -/
def byteLane (v : Word) (k : Nat) : BitVec 8 := v.extractLsb' (8 * k) 8

/-- The byte that a byte-addressed platform places at an offset of the window, where the register is readable (R57). -/
def windowByte (s : State) (off : Nat) : Option (BitVec 8) :=
  ((windowReg (off - off % 4)).bind (windowWord s)).map fun v => byteLane v (off % 4)

/-- The bus address of an offset of the window (R50; log 4). -/
def busAddress (off : Fin 256) : Nat := Config.base + off.val

/-- The write data of an action fits its width (20_memory.md section 2; log 11). -/
def HostAction.wellFormed : HostAction → Bool
  | .memRead _ _ => true
  | .memWrite _ n v => decide (v < 2 ^ (8 * n))
  | .reset => true

/-- The transaction that delivers the command word w (R56). -/
def deliver (w : Nat) : HostAction := .memWrite 0x40 4 w

end Sys2Proof.Machine
end

