-- ==== Sys2Proof/Machine/Bus.lean ====
section
/-! DEFINITION. What the block does with one action of the host (spec/20_memory.md R52 to R56; 60_exceptions.md R170;
70_reset_and_hazards.md R200). -/

namespace Sys2Proof.Machine

/-- A word written to `CMD`: decode it and run the command to its end; an illegal word raises `ILLEGAL_COMMAND` and runs
nothing (R56, R170 step 1, R85, R86). -/
def runCommand (w : Word) (s : State) : Result :=
  match decode w with
  | .cmd i => exec i s
  | .illegal _ => .next (raise .illegalCommand s)

/-- The response is given when the command has ended (R56). -/
def thenRespond (r : Response) : Result → Result
  | .next s => .next (respond r s)
  | .fault f => .fault f
  | .refused f => .refused f

/-- `MemWrite(off, n, v)` (R52, R54 to R56): a general register is replaced, `CMD` executes, anything else is a
`BusError` with no change. -/
def busWrite (off n v : Nat) (s : State) : Result :=
  if n = 4 then
    match windowReg off with
    | some (.x r) => .next (respond .done (writeReg r (BitVec.ofNat 32 v) s))
    | some .cmd => thenRespond .done (runCommand (BitVec.ofNat 32 v) s)
    | some .status | some .degree | some .order | some .modulus | some .gcd | none => .next (respond .busError s)
  else .next (respond .busError s)

/-- One action of the host, served to its end (R62). A reset gives no response (log 8). -/
def serve (a : HostAction) (s : State) : Result :=
  match a with
  | .memRead off n => .next (respond (busRead off n s) s)
  | .memWrite off n v => busWrite off n v s
  | .reset => .next (resetBlock s)

/-- The next action of the host's list is served; with none left the block is idle and keeps its state (R62, R185, R207;
log 2). -/
def serveNext (s : State) : Result :=
  match s.pending with
  | [] => .next s
  | a :: rest => serve a { s with pending := rest }

/-- The host's list with one more command delivered first (R56). -/
def withCommandFirst (w : Nat) (s : State) : State := { s with pending := deliver w :: s.pending }

end Sys2Proof.Machine
end

