-- ==== Sys2Proof/Machine/Step.lean ====
section
/-! DEFINITION. One step of the machine: one host action, served to its end (spec/20_memory.md R62; 70_reset_and_hazards.md
R207). The block has no program counter and fetches nothing (spec/10_state.md R30): a command arrives by a write to `CMD`. -/

namespace Sys2Proof.Machine

/-- One step. -/
def step (s : State) : Host.Outcome State Fault Refusal := serveNext s

/-- The state whose next step runs the table word `w` of `nbits` bits: the write that delivers it stands first in the
host's list (log 1). -/
def State.withFetchWord (s : State) (nbits w : Nat) : State := withCommandFirst (w % 2 ^ nbits) s

end Sys2Proof.Machine
end

