-- ==== Sys2Proof/Machine/Listing.lean ====
section
/-! DEFINITION. The listings of the spec (spec/30_encoding.md R90, R91): the text of a command, and the host action that a line
stands for (log 19). There is no pseudo-instruction. -/

namespace Sys2Proof.Machine

/-- A register's name in a listing. -/
def regName (r : Reg) : String := "x" ++ toString r.val

/-- The operands of format R3. -/
def operands3 (rd rs1 rs2 : Reg) : String := regName rd ++ ", " ++ regName rs1 ++ ", " ++ regName rs2

/-- The operands of format R2. -/
def operands2 (rd rs1 : Reg) : String := regName rd ++ ", " ++ regName rs1

/-- The operands of a command, the destination first (R90). -/
def operandText : Instr → String
  | .setdeg imm => toString imm
  | .add rd rs1 rs2 => operands3 rd rs1 rs2
  | .mul rd rs1 rs2 => operands3 rd rs1 rs2
  | .pow rd rs1 rs2 => operands3 rd rs1 rs2
  | .inv rd rs1 => operands2 rd rs1
  | .bitlen rd rs1 => operands2 rd rs1
  | .clmul rd rs1 rs2 => operands3 rd rs1 rs2
  | .clmulh rd rs1 rs2 => operands3 rd rs1 rs2
  | .pred rd rs1 rs2 => operands3 rd rs1 rs2
  | .pdiv rd rs1 rs2 => operands3 rd rs1 rs2
  | .prem rd rs1 rs2 => operands3 rd rs1 rs2

/-- The text of a command (R90). -/
def assembly (i : Instr) : String := mnemonic i ++ " " ++ operandText i

/-- The offset of a register of the window (R51). -/
def registerOffset : WindowReg → Fin 256
  | .x r => Fin.ofNat 256 (4 * r.val)
  | .cmd => 0x40
  | .status => 0x44
  | .degree => 0x48
  | .order => 0x4C
  | .modulus => 0x50
  | .gcd => 0x54

/-- A line of a listing (R90): a command, or a host directive. -/
inductive ListingLine
  | command (i : Instr)
  /-- `WR xN, value`. -/
  | wr (r : Reg) (value : Word)
  /-- `WR CMD, word`. -/
  | wrCmd (word : Word)
  /-- `RD name`; the name is never `CMD`. -/
  | rd (name : WindowReg)
  /-- `RESET`. -/
  | reset
  deriving DecidableEq, Repr

/-- The host action that a line stands for (R90): a command line is the `CMD` write of its encoding. -/
def lineAction : ListingLine → HostAction
  | .command i => deliver (encode i).toNat
  | .wr r value => .memWrite (registerOffset (.x r)) 4 value.toNat
  | .wrCmd word => deliver word.toNat
  | .rd name => .memRead (registerOffset name) 4
  | .reset => .reset

end Sys2Proof.Machine
end

