-- ==== Sys2Proof/Machine/Run.lean ====
section
/-! DEFINITION. A run with a host that chooses its next action by what it has read (spec/60_exceptions.md R186;
70_reset_and_hazards.md R207; log 9). A host whose list is fixed in advance needs none of this: its list is `pending`. -/

namespace Sys2Proof.Machine

/-- A program of the host: from the number of actions it has taken and the responses it has observed to its next action, or
to the end of the run (R186). It stands beside the state, not in it. DESIGN CHOICE (log 9): R186 speaks of transactions and
read values only and leaves open how such a program goes on after a `RESET`, which adds no response (log 8); here it
counts a `RESET` as an action taken, so it goes on past it, and still sees the responses from before it. -/
abbrev HostProgram := Nat → List Response → Option HostAction

/-- A run of at most `n` further actions after `taken` actions (R207): each action the program chooses is served by one
step, a `RESET` too, and then counts as taken (DESIGN CHOICE, log 9). `pending` holds the chosen action alone: such a host
has no list beside its program (DESIGN CHOICE, log 9). -/
def runProgram (program : HostProgram) : Nat → Nat → State → Result
  | 0, _, s => .next s
  | n + 1, taken, s =>
    match program taken s.responses with
    | none => .next s
    | some a =>
      match step { s with pending := [a] } with
      | .next t => runProgram program n (taken + 1) t
      | .fault f => .fault f
      | .refused f => .refused f

end Sys2Proof.Machine
end

