-- ==== Sys2Proof/Safety.lean ====
section
/-! DEFINITION. What counts as a safe state and a safe run, and the vocabulary of the claims: the invariants of the field
record and of the status, the destination, the sources and the error of a command as spec/60_exceptions.md R170 gives them. -/

namespace Sys2Proof.Machine

open Sys2Proof.Gf2

/-- The invariant of the field record (R22). -/
abbrev FieldRecordOk (s : State) : Prop :=
  (s.fv = false → s.degree = 0 ∧ s.order = 0 ∧ s.modulus = 0) ∧
  (s.fv = true → 1 ≤ s.degree.toNat ∧ s.degree.toNat ≤ 24 ∧ s.order.toNat = 2 ^ s.degree.toNat ∧
    s.modulus.toNat = irred s.degree.toNat ∧ bitlen s.modulus.toNat = s.degree.toNat + 1)

/-- `DI` is set only by an INV that ended without error, in a field, with a gcd other than 1 (R26, R154), and nothing
else writes `GCD` or undoes a field. -/
abbrev StatusOk (s : State) : Prop :=
  s.di = true → s.err = .ok ∧ s.fv = true ∧ s.gcd ≠ 1

/-- The invariant of the machine, at every point between host actions. -/
abbrev Inv (s : State) : Prop := FieldRecordOk s ∧ StatusOk s

/-- A safe step: the machine goes on. -/
def GoesOn (s : State) : Prop := ∃ t, step s = .next t

/-- The polynomial p has no factor of degree 1 up to one below its own (R23). -/
def NoProperFactor (p : Nat) : Prop :=
  ∀ f, 2 ≤ bitlen f → bitlen f < bitlen p → polyrem p f ≠ 0

/-- The destination register of a command; SETDEG has none (R82, R170 step 6). -/
def destination : Instr → Option Reg
  | .setdeg _ => none
  | .add rd _ _ => some rd
  | .mul rd _ _ => some rd
  | .pow rd _ _ => some rd
  | .inv rd _ => some rd
  | .bitlen rd _ => some rd
  | .clmul rd _ _ => some rd
  | .clmulh rd _ _ => some rd
  | .pred rd _ _ => some rd
  | .pdiv rd _ _ => some rd
  | .prem rd _ _ => some rd

/-- The source registers of a command (R82, R170 step 2). -/
def sources : Instr → List Reg
  | .setdeg _ => []
  | .add _ rs1 rs2 => [rs1, rs2]
  | .mul _ rs1 rs2 => [rs1, rs2]
  | .pow _ rs1 rs2 => [rs1, rs2]
  | .inv _ rs1 => [rs1]
  | .bitlen _ rs1 => [rs1]
  | .clmul _ rs1 rs2 => [rs1, rs2]
  | .clmulh _ rs1 rs2 => [rs1, rs2]
  | .pred _ rs1 rs2 => [rs1, rs2]
  | .pdiv _ rs1 rs2 => [rs1, rs2]
  | .prem _ rs1 rs2 => [rs1, rs2]

/-- The five commands that need a field (R170 step 3). -/
def needsField : Instr → Bool
  | .add _ _ _ => true
  | .mul _ _ _ => true
  | .pow _ _ _ => true
  | .inv _ _ => true
  | .pred _ _ _ => true
  | .setdeg _ => false
  | .bitlen _ _ => false
  | .clmul _ _ _ => false
  | .clmulh _ _ _ => false
  | .pdiv _ _ _ => false
  | .prem _ _ _ => false

/-- The check of the command's own rule (R170 step 4). -/
def ownError (i : Instr) (s : State) : ErrCode :=
  match i with
  | .setdeg imm => if 1 ≤ imm ∧ imm ≤ 24 then .ok else .invalidDegree
  | .pow _ _ rs2 => if (readReg s rs2).getLsbD 31 then .negativeExponent else .ok
  | .pdiv _ _ rs2 => if readReg s rs2 = 0 then .divideByZero else .ok
  | .prem _ _ rs2 => if readReg s rs2 = 0 then .divideByZero else .ok
  | .add _ _ _ => .ok
  | .mul _ _ _ => .ok
  | .inv _ _ => .ok
  | .bitlen _ _ => .ok
  | .clmul _ _ _ => .ok
  | .clmulh _ _ _ => .ok
  | .pred _ _ _ => .ok

/-- The outcome that a command reports: the first error that the order of R170 meets, else OK (R173). -/
def reportedError (i : Instr) (s : State) : ErrCode :=
  if needsField i = true ∧ s.fv = false then .noField else ownError i s

/-- A transaction is legal exactly when this holds (R52): 4 bytes, aligned, mapped, in an allowed direction. -/
def LegalTransaction : HostAction → Prop
  | .memRead off n => n = 4 ∧ off.val % 4 = 0 ∧ off.val ≤ 0x54 ∧ off.val ≠ 0x40
  | .memWrite off n _ => n = 4 ∧ off.val % 4 = 0 ∧ off.val ≤ 0x40
  | .reset => False

end Sys2Proof.Machine
end

