-- ==== Sys2Proof/Certificates/Slice0/Obligations.lean ====
section
/-! DEFINITION. The statements for the provers, one definition each, in the order of OBLIGATIONS.json. A register operand is
`readReg s r`, its value as a natural `(readReg s r).toNat`. Where the next state is written out as `s` with some fields
changed, every field that is not named is unchanged: that is the statement's frame. -/

open Sys2Proof Sys2Proof.Machine Sys2Proof.Gf2

/-! ## Encoding and decoding (30_encoding.md) -/

/-- R92: decoding the word of a command with fields in range gives the command back. -/
def Obligations.DecodeInvertsEncode : Prop :=
  ∀ i : Instr, i.WellFormed → decode (encode i) = .cmd i

/-- R92: encoding what a legal word decodes to gives the word back, and only commands with fields in range are decoded. -/
def Obligations.EncodeInvertsDecode : Prop :=
  ∀ (w : Word) (i : Instr), decode w = .cmd i → i.WellFormed ∧ encode i = w

/-- R81, R92: the five fields of a word are its digits, and `decode` branches on them as the pseudocode of R92 does. -/
def Obligations.DecodeFollowsPseudocode : Prop :=
  ∀ (op rd rs1 rs2 imm : Nat), op < 256 → rd < 16 → rs1 < 16 → rs2 < 16 → imm < 4096 →
    ∀ w : Word, w = BitVec.ofNat 32 ((op <<< 24) ||| (rd <<< 20) ||| (rs1 <<< 16) ||| (rs2 <<< 12) ||| imm) →
      (op = 0x01 → rd = 0 ∧ rs1 = 0 ∧ rs2 = 0 → decode w = .cmd (.setdeg imm)) ∧
      (op = 0x01 → ¬(rd = 0 ∧ rs1 = 0 ∧ rs2 = 0) → ∃ why, decode w = .illegal why) ∧
      (∀ row ∈ [(0x10, Instr.add), (0x11, Instr.mul), (0x12, Instr.pow), (0x21, Instr.clmul), (0x22, Instr.clmulh),
          (0x23, Instr.pred), (0x24, Instr.pdiv), (0x25, Instr.prem)], op = row.1 →
        (imm = 0 → decode w = .cmd (row.2 (Fin.ofNat 16 rd) (Fin.ofNat 16 rs1) (Fin.ofNat 16 rs2))) ∧
        (imm ≠ 0 → ∃ why, decode w = .illegal why)) ∧
      (∀ row ∈ [(0x13, Instr.inv), (0x20, Instr.bitlen)], op = row.1 →
        (rs2 = 0 ∧ imm = 0 → decode w = .cmd (row.2 (Fin.ofNat 16 rd) (Fin.ofNat 16 rs1))) ∧
        (¬(rs2 = 0 ∧ imm = 0) → ∃ why, decode w = .illegal why)) ∧
      (op ∉ [0x01, 0x10, 0x11, 0x12, 0x13, 0x20, 0x21, 0x22, 0x23, 0x24, 0x25] → ∃ why, decode w = .illegal why)

/-- R84: the eleven rows of the map, which are the whole command set; a word encodes the command of a row exactly when
`(w AND mask) = match`; no word matches two rows. -/
def Obligations.OpcodeMapDecidesTheCommand : Prop :=
  opcodeTable =
    [⟨"SETDEG", .i, 0x01000000, 0xFFFFF000⟩, ⟨"ADD", .r3, 0x10000000, 0xFF000FFF⟩, ⟨"MUL", .r3, 0x11000000, 0xFF000FFF⟩,
      ⟨"POW", .r3, 0x12000000, 0xFF000FFF⟩, ⟨"INV", .r2, 0x13000000, 0xFF00FFFF⟩,
      ⟨"BITLEN", .r2, 0x20000000, 0xFF00FFFF⟩, ⟨"CLMUL", .r3, 0x21000000, 0xFF000FFF⟩,
      ⟨"CLMULH", .r3, 0x22000000, 0xFF000FFF⟩, ⟨"PRED", .r3, 0x23000000, 0xFF000FFF⟩,
      ⟨"PDIV", .r3, 0x24000000, 0xFF000FFF⟩, ⟨"PREM", .r3, 0x25000000, 0xFF000FFF⟩] ∧
  (∀ i : Instr, ∃ row ∈ opcodeTable, row.mnemonic = mnemonic i) ∧
  (∀ (w : Word), ∀ row ∈ opcodeTable,
    w &&& row.mask = row.value ↔ ∃ i, decode w = .cmd i ∧ mnemonic i = row.mnemonic) ∧
  (∀ (w : Word), ∀ row ∈ opcodeTable, ∀ row' ∈ opcodeTable,
    w &&& row.mask = row.value → w &&& row'.mask = row'.value → row = row')

/-- R85, R86: a word that matches no row of the map executes nothing and ends with `ILLEGAL_COMMAND`; the opcodes in no row
are the 245 that R85 lists; the words 0 and 0xFFFFFFFF match none; a word is legal exactly when it matches a row. -/
def Obligations.IllegalWordsEndWithIllegalCommand : Prop :=
  (∀ (w : Word) (s : State) (rest : List HostAction), (∀ row ∈ opcodeTable, w &&& row.mask ≠ row.value) →
    step { s with pending := .memWrite 0x40 4 w.toNat :: rest } =
      .next { s with pending := rest, err := .illegalCommand, di := false, responses := s.responses ++ [.done] }) ∧
  (∀ w : Word, (∃ row ∈ opcodeTable, w &&& row.mask = row.value) ↔ ∃ i, decode w = .cmd i) ∧
  (∀ op, op < 256 → ((∀ row ∈ opcodeTable, row.value.toNat / 2 ^ 24 ≠ op) ↔
    op = 0x00 ∨ (0x02 ≤ op ∧ op ≤ 0x0F) ∨ (0x14 ≤ op ∧ op ≤ 0x1F) ∨ 0x26 ≤ op)) ∧
  ((List.range 256).filter fun op => opcodeTable.all fun row => row.value.toNat / 2 ^ 24 != op).length = 245 ∧
  (∀ row ∈ opcodeTable, (0x00000000 : Word) &&& row.mask ≠ row.value ∧ (0xFFFFFFFF : Word) &&& row.mask ≠ row.value)

/-- A few words of 95_test_vectors.md section 2.1 decode to the command they stand for. -/
def Obligations.SampleWordsDecode : Prop :=
  decode 0x01000018 = .cmd (.setdeg 24) ∧ decode 0x10FFF000 = .cmd (.add 15 15 15) ∧
  decode 0x11312000 = .cmd (.mul 3 1 2) ∧ decode 0x13F00000 = .cmd (.inv 15 0) ∧
  decode 0x200F0000 = .cmd (.bitlen 0 15) ∧ decode 0x25ABC000 = .cmd (.prem 10 11 12)

/-! ## A step (20_memory.md R56, R62; 70_reset_and_hazards.md R204) -/

/-- R56: a word written to `CMD` that decodes to a command runs exactly that command, on the state without the delivering
write, and the response is `Done` whatever the outcome; `withFetchWord`, the model's own (log 1), delivers a word in that
way. With no action left the block keeps its state (R185; log 2). -/
def Obligations.StepRunsDecodedCommand : Prop :=
  (∀ (s : State) (rest : List HostAction) (w : Nat) (i : Instr), w < 2 ^ 32 → decode (BitVec.ofNat 32 w) = .cmd i →
    ∃ t, exec i { s with pending := rest } = .next t ∧
      step { s with pending := .memWrite 0x40 4 w :: rest } = .next { t with responses := t.responses ++ [.done] }) ∧
  (∀ (s : State) (w : Nat) (i : Instr), decodeTableWord 32 w = some i →
    ∃ t, exec i s = .next t ∧ step (s.withFetchWord 32 w) = .next { t with responses := t.responses ++ [.done] }) ∧
  (∀ s : State, s.pending = [] → step s = .next s)

/-- R90 with R56: a command line of a listing, which stands for the `CMD` write of its encoding, runs its command; `WR` and
`RD` lines write and read the register they name; `WR CMD` runs its raw word, legal or not; `RESET` is the reset of R200
(the host's list and the responses, which stay, are the model's own: log 1, log 8). -/
def Obligations.ListingLinesRun : Prop :=
  (∀ (i : Instr) (s : State) (rest : List HostAction), i.WellFormed →
    ∃ t, exec i { s with pending := rest } = .next t ∧
      step { s with pending := lineAction (.command i) :: rest } =
        .next { t with responses := t.responses ++ [.done] }) ∧
  (∀ (r : Reg) (v : Word) (s : State) (rest : List HostAction),
    step { s with pending := lineAction (.wr r v) :: rest } =
      .next { s with pending := rest, x := s.x.set r v, responses := s.responses ++ [.done] }) ∧
  (∀ (name : WindowReg) (s : State) (rest : List HostAction), name ≠ .cmd →
    ∃ v, windowWord s name = some v ∧ step { s with pending := lineAction (.rd name) :: rest } =
      .next { s with pending := rest, responses := s.responses ++ [.data v] }) ∧
  (∀ (word : Word) (s : State) (rest : List HostAction), ∃ t, runCommand word { s with pending := rest } = .next t ∧
    step { s with pending := lineAction (.wrCmd word) :: rest } = .next { t with responses := t.responses ++ [.done] }) ∧
  (∀ (s : State) (rest : List HostAction), step { s with pending := lineAction .reset :: rest } =
    .next { State.reset with pending := rest, responses := s.responses }) ∧
  (∀ name : WindowReg, windowReg (registerOffset name).val = some name)

/-- R204: every command ends, and so does every step: nothing faults, nothing is refused. -/
def Obligations.EveryCommandAndStepEnds : Prop :=
  (∀ (i : Instr) (s : State), ∃ t, exec i s = .next t) ∧ (∀ s : State, ∃ t, step s = .next t)

/-- The bounds on the passes of the model's loops are never what ends them: more passes change no result, for every operand
for which the spec defines the function (R120, R121, R143, R150, R155). -/
def Obligations.PassBoundsNeverCutALoop : Prop :=
  ∀ (a p extra : Nat), p ≠ 0 →
    clmulLoop p a (bitlen a + extra) 0 0 = clmul p a ∧
    polyremLoop p (bitlen a + extra) a = polyrem a p ∧
    polydivmodLoop p (bitlen a + extra) 0 a = polydivmod a p ∧
    invEeaLoop (bitlen p + extra) a p 1 0 = invEea a p ∧
    (∀ n, potSquaringLoop p (bitlen n + extra) 1 a n = potSquaring a n p)

/-! ## The functions -/

/-- R110. -/
def Obligations.BitlenIsHighestSetBit : Prop :=
  bitlen 0 = 0 ∧
  (∀ v i, 0 < v → v.testBit i = true → (∀ j, v.testBit j = true → j ≤ i) → bitlen v = 1 + i) ∧
  (∀ v, v < 2 ^ bitlen v ∧ ∀ k, v < 2 ^ k → bitlen v ≤ k) ∧
  (bitlen 1 = 1 ∧ bitlen 2 = 2 ∧ bitlen 3 = 2 ∧ bitlen 4 = 3 ∧ bitlen 9 = 4 ∧ bitlen 0x13 = 5) ∧
  (∀ k, bitlen (2 ^ k) = k + 1 ∧ bitlen (2 ^ k - 1) = k)

/-- R120: the loop, which runs exactly `bitlen(b)` times, and the product it computes: the coefficient of x^k is the sum
modulo 2 of `a[i] AND b[k - i]`. -/
def Obligations.ClmulCoefficients : Prop :=
  (∀ a b : Nat, clmul a b =
    (List.range (bitlen b)).foldl (fun r i => if b.testBit i then r ^^^ (a <<< i) else r) 0) ∧
  (∀ b i : Nat, b >>> i ≠ 0 ↔ i < bitlen b) ∧
  (∀ a b k : Nat, (clmul a b).testBit k =
    decide (((List.range (k + 1)).filter fun i => a.testBit i && b.testBit (k - i)).length % 2 = 1))

/-- R121: the loop of `polyrem` and its number of passes, the size of its result, that the result is the one remainder of
that size, that it is the remainder of `polydivmod`, and that no command divides by a zero `MODULUS`. -/
def Obligations.PolyremIsTheRemainder : Prop :=
  ∀ r p : Nat, p ≠ 0 →
    polyrem r p = (if bitlen p ≤ bitlen r then polyrem (r ^^^ (p <<< (bitlen r - bitlen p))) p else r) ∧
    (bitlen p ≤ bitlen r → bitlen (r ^^^ (p <<< (bitlen r - bitlen p))) < bitlen r) ∧
    bitlen (polyrem r p) < bitlen p ∧
    (∃ q, r = clmul q p ^^^ polyrem r p) ∧
    (∀ q d, r = clmul q p ^^^ d → bitlen d < bitlen p → d = polyrem r p) ∧
    (bitlen p ≤ bitlen r → polyremLoop p (bitlen r - bitlen p + 1) r = polyrem r p) ∧
    (bitlen r < bitlen p → polyrem r p = r) ∧
    polyrem r p = (polydivmod r p).2 ∧
    (∀ s : State, FieldRecordOk s → s.fv = true → s.modulus.toNat ≠ 0)

/-- R122. -/
def Obligations.MultIsProductReduced : Prop :=
  ∀ a b p : Nat, 2 ≤ bitlen p → mult a b p = polyrem (clmul a b) p ∧ mult a b p < 2 ^ (bitlen p - 1) ∧
    (∀ s : State, FieldRecordOk s → s.fv = true → mult a b s.modulus.toNat < s.order.toNat)

/-- R129. -/
def Obligations.ClmulLaws : Prop :=
  (∀ a b, clmul a b = clmul b a) ∧ (∀ a, clmul a 0 = 0 ∧ clmul 0 a = 0 ∧ clmul a 1 = a) ∧
  (∀ a k, clmul a (2 ^ k) = a <<< k) ∧ (∀ a b c, clmul a (b ^^^ c) = clmul a b ^^^ clmul a c) ∧
  (∀ a b c, clmul (clmul a b) c = clmul a (clmul b c)) ∧
  (∀ a b, a ≠ 0 → b ≠ 0 → bitlen (clmul a b) = bitlen a + bitlen b - 1) ∧
  (∀ a b m, 1 ≤ m → a < 2 ^ m → b < 2 ^ m → bitlen (clmul a b) ≤ 2 * (m - 1) + 1) ∧
  (∀ a b, a < 2 ^ 32 → b < 2 ^ 32 → clmul a b < 2 ^ 63)

/-- R150: the loop of `polydivmod` and its number of passes, that its pair is the one quotient and remainder, and the sizes. -/
def Obligations.PolydivmodIsTheDivision : Prop :=
  ∀ n p : Nat, p ≠ 0 →
    (bitlen n < bitlen p → polydivmod n p = (0, n)) ∧
    (bitlen p ≤ bitlen n →
      polydivmod n p = ((1 <<< (bitlen n - bitlen p)) ||| (polydivmod (n ^^^ (p <<< (bitlen n - bitlen p))) p).1,
        (polydivmod (n ^^^ (p <<< (bitlen n - bitlen p))) p).2)) ∧
    (bitlen p ≤ bitlen n → bitlen (n ^^^ (p <<< (bitlen n - bitlen p))) < bitlen n) ∧
    n = clmul (polydivmod n p).1 p ^^^ (polydivmod n p).2 ∧ bitlen (polydivmod n p).2 < bitlen p ∧
    (∀ c d, n = clmul c p ^^^ d → bitlen d < bitlen p → (c, d) = polydivmod n p) ∧
    (bitlen p ≤ bitlen n → bitlen (polydivmod n p).1 = bitlen n - bitlen p + 1) ∧
    (bitlen p ≤ bitlen n → polydivmodLoop p (bitlen n - bitlen p + 1) 0 n = polydivmod n p) ∧
    polydivmod 0 p = (0, 0) ∧
    (polydivmod n p).2 = polyrem n p

/-- R155: the sizes of what `inv_eea` returns, and that `bitlen(p)` passes are enough. -/
def Obligations.InvEeaSizes : Prop :=
  ∀ a p : Nat, 2 ≤ bitlen p →
    (invEea a p).1 < 2 ^ bitlen p ∧ (invEea a p).2 < 2 ^ bitlen p ∧
    ((invEea a p).2 = 1 → (invEea a p).1 < 2 ^ (bitlen p - 1)) ∧
    (∀ extra, invEeaLoop (bitlen p + extra) a p 1 0 = invEea a p)

/-! ## The commands -/

/-- R100, R101. -/
def Obligations.SetdegBuildsTheField : Prop :=
  ∀ (imm : Nat) (s : State), imm < 4096 →
    encode (.setdeg imm) = BitVec.ofNat 32 (0x01000000 ||| imm) ∧
    ((imm < 1 ∨ 24 < imm) → exec (.setdeg imm) s = .next { s with err := .invalidDegree, di := false }) ∧
    (1 ≤ imm → imm ≤ 24 → ∃ (d : BitVec 5) (q p : BitVec 25), d.toNat = imm ∧ q.toNat = 2 ^ imm ∧ p.toNat = irred imm ∧
      exec (.setdeg imm) s =
        .next { s with fv := true, degree := d, order := q, modulus := p, err := .ok, di := false }) ∧
    (FieldRecordOk s → s.fv = true → exec (.setdeg s.degree.toNat) s = .next { s with err := .ok, di := false }) ∧
    encode (.setdeg 4) = 0x01000004 ∧
    (∃ t, exec (.setdeg 4) s = .next t ∧ t.order = 0x10 ∧ t.modulus = 0x13 ∧ statusWord t = 0x00000100)

/-- R111. -/
def Obligations.BitlenWritesTheBitLength : Prop :=
  ∀ (rd rs1 : Reg) (s : State),
    encode (.bitlen rd rs1) = BitVec.ofNat 32 (0x20000000 ||| (rd.val <<< 20) ||| (rs1.val <<< 16)) ∧
    (∃ v : Word, v.toNat = bitlen (readReg s rs1).toNat ∧ v.toNat ≤ 32 ∧
      exec (.bitlen rd rs1) s = .next { s with x := s.x.set rd v, err := .ok, di := false } ∧
      (readReg s rs1 = 0 → v = 0) ∧ (readReg s rs1 = 0xFFFFFFFF → v = 32) ∧ (readReg s rs1 = 0x80000000 → v = 32) ∧
      (readReg s rs1 = 0x7FFFFFFF → v = 31) ∧ (readReg s rs1 = 0x13 → v = 5)) ∧
    encode (.bitlen 2 1) = 0x20210000

/-- R112. -/
def Obligations.AddWritesTheXor : Prop :=
  ∀ (rd rs1 rs2 : Reg) (s : State),
    encode (.add rd rs1 rs2) = BitVec.ofNat 32 (0x10000000 ||| (rd.val <<< 20) ||| (rs1.val <<< 16) ||| (rs2.val <<< 12)) ∧
    (s.fv = false → exec (.add rd rs1 rs2) s = .next { s with err := .noField, di := false }) ∧
    (s.fv = true → ∃ v : Word, v = readReg s rs1 ^^^ readReg s rs2 ∧
      exec (.add rd rs1 rs2) s = .next { s with x := s.x.set rd v, err := .ok, di := false } ∧
      (rs1 = rs2 → v = 0) ∧ (FieldRecordOk s → (readReg s rs1).toNat < s.order.toNat →
        (readReg s rs2).toNat < s.order.toNat → v.toNat < s.order.toNat) ∧
      (readReg s rs1 = 6 → readReg s rs2 = 3 → v = 5)) ∧
    encode (.add 3 1 2) = 0x10312000

/-- R113, for the command: commutative, zero, self-inverse, associative (with the intermediate sum in the destination,
which is none of the operands still needed), and closed below `ORDER`. -/
def Obligations.AddLaws : Prop :=
  ∀ (rd a b c : Reg) (s : State), s.fv = true →
    exec (.add rd a b) s = exec (.add rd b a) s ∧
    (∃ t, exec (.add rd a b) s = .next t ∧ (readReg s b = 0 → readReg t rd = readReg s a) ∧
      (a = b → readReg t rd = 0) ∧
      (FieldRecordOk s → (readReg s a).toNat < s.order.toNat → (readReg s b).toNat < s.order.toNat →
        (readReg t rd).toNat < s.order.toNat)) ∧
    (rd ≠ a → rd ≠ c → ∃ t u t' u', exec (.add rd a b) s = .next t ∧ exec (.add rd rd c) t = .next u ∧
      exec (.add rd b c) s = .next t' ∧ exec (.add rd a rd) t' = .next u' ∧ u = u')

/-- R123. -/
def Obligations.ClmulWritesTheLowHalf : Prop :=
  ∀ (rd rs1 rs2 : Reg) (s : State),
    encode (.clmul rd rs1 rs2) =
      BitVec.ofNat 32 (0x21000000 ||| (rd.val <<< 20) ||| (rs1.val <<< 16) ||| (rs2.val <<< 12)) ∧
    (∃ v : Word, v.toNat = clmul (readReg s rs1).toNat (readReg s rs2).toNat % 2 ^ 32 ∧
      exec (.clmul rd rs1 rs2) s = .next { s with x := s.x.set rd v, err := .ok, di := false } ∧
      (readReg s rs1 = 0 ∨ readReg s rs2 = 0 → v = 0) ∧ (readReg s rs2 = 1 → v = readReg s rs1) ∧
      (bitlen (readReg s rs1).toNat + bitlen (readReg s rs2).toNat ≤ 33 →
        v.toNat = clmul (readReg s rs1).toNat (readReg s rs2).toNat ∧
        exec (.clmulh rd rs1 rs2) s = .next { s with x := s.x.set rd 0, err := .ok, di := false }) ∧
      (readReg s rs1 = 3 → readReg s rs2 = 7 → v = 9) ∧
      (readReg s rs1 = 0xFFFFFFFF → readReg s rs2 = 0xFFFFFFFF → v = 0x55555555)) ∧
    clmul 0xFFFFFFFF 0xFFFFFFFF = 0x5555555555555555 ∧ encode (.clmul 3 1 2) = 0x21312000

/-- R124. -/
def Obligations.ClmulhWritesTheHighHalf : Prop :=
  ∀ (rd rs1 rs2 : Reg) (s : State),
    encode (.clmulh rd rs1 rs2) =
      BitVec.ofNat 32 (0x22000000 ||| (rd.val <<< 20) ||| (rs1.val <<< 16) ||| (rs2.val <<< 12)) ∧
    (∃ v : Word, v.toNat = clmul (readReg s rs1).toNat (readReg s rs2).toNat / 2 ^ 32 ∧ v.getLsbD 31 = false ∧
      exec (.clmulh rd rs1 rs2) s = .next { s with x := s.x.set rd v, err := .ok, di := false } ∧
      (clmul (readReg s rs1).toNat (readReg s rs2).toNat < 2 ^ 32 → v = 0) ∧
      (readReg s rs1 = 0xFFFFFFFF → readReg s rs2 = 0xFFFFFFFF → v = 0x55555555) ∧
      (readReg s rs1 = 0x80000000 → readReg s rs2 = 0x80000000 → v = 0x40000000)) ∧
    clmul 0x80000000 0x80000000 = 2 ^ 62 ∧ encode (.clmulh 3 1 2) = 0x22312000

/-- R125. -/
def Obligations.PredWritesTheReduction : Prop :=
  ∀ (rd rs1 rs2 : Reg) (s : State),
    encode (.pred rd rs1 rs2) =
      BitVec.ofNat 32 (0x23000000 ||| (rd.val <<< 20) ||| (rs1.val <<< 16) ||| (rs2.val <<< 12)) ∧
    (s.fv = false → exec (.pred rd rs1 rs2) s = .next { s with err := .noField, di := false }) ∧
    (s.fv = true → FieldRecordOk s → ∃ v : Word,
      v.toNat = polyrem ((readReg s rs1).toNat * 2 ^ 32 + (readReg s rs2).toNat) s.modulus.toNat ∧
      v.toNat < s.order.toNat ∧
      exec (.pred rd rs1 rs2) s = .next { s with x := s.x.set rd v, err := .ok, di := false } ∧
      (readReg s rs1 = 0 → readReg s rs2 = 0 → v = 0) ∧
      (bitlen ((readReg s rs1).toNat * 2 ^ 32 + (readReg s rs2).toNat) ≤ s.degree.toNat →
        v.toNat = (readReg s rs1).toNat * 2 ^ 32 + (readReg s rs2).toNat) ∧
      (s.degree = 4 → readReg s rs1 = 0 → readReg s rs2 = 0x7F → v = 6) ∧
      (s.degree = 4 → readReg s rs1 = 0x5FFF0846 → readReg s rs2 = 0xB6B7038A → v = 1)) ∧
    encode (.pred 3 1 2) = 0x23312000

/-- R126. -/
def Obligations.MulWritesTheFieldProduct : Prop :=
  ∀ (rd rs1 rs2 : Reg) (s : State),
    encode (.mul rd rs1 rs2) =
      BitVec.ofNat 32 (0x11000000 ||| (rd.val <<< 20) ||| (rs1.val <<< 16) ||| (rs2.val <<< 12)) ∧
    (s.fv = false → exec (.mul rd rs1 rs2) s = .next { s with err := .noField, di := false }) ∧
    (s.fv = true → FieldRecordOk s → ∃ v : Word,
      v.toNat = mult (readReg s rs1).toNat (readReg s rs2).toNat s.modulus.toNat ∧ v.toNat < s.order.toNat ∧
      exec (.mul rd rs1 rs2) s = .next { s with x := s.x.set rd v, err := .ok, di := false } ∧
      (readReg s rs1 = 0 ∨ readReg s rs2 = 0 → v = 0) ∧
      (readReg s rs2 = 1 → v.toNat = polyrem (readReg s rs1).toNat s.modulus.toNat) ∧
      (readReg s rs2 = 1 → (readReg s rs1).toNat < s.order.toNat → v = readReg s rs1) ∧
      (s.degree = 4 → readReg s rs1 = 3 → readReg s rs2 = 7 → v = 9) ∧
      (s.degree = 4 → readReg s rs1 = 13 → readReg s rs2 = 11 → v = 6)) ∧
    encode (.mul 3 1 2) = 0x11312000

/-- R128: MUL is CLMULH and CLMUL followed by PRED, in every state with a field. -/
def Obligations.MulIsItsTwoPhases : Prop :=
  (∀ (rd hi lo rs1 rs2 : Reg) (s : State), s.fv = true → hi ≠ lo → hi ≠ rs1 → hi ≠ rs2 →
    ∃ t1 t2 t3 u, exec (.clmulh hi rs1 rs2) s = .next t1 ∧ exec (.clmul lo rs1 rs2) t1 = .next t2 ∧
      exec (.pred rd hi lo) t2 = .next t3 ∧ exec (.mul rd rs1 rs2) s = .next u ∧
      t3.err = .ok ∧ u.err = .ok ∧ readReg t3 rd = readReg u rd) ∧
  (∀ (a b : Word) (p : Nat), mult a.toNat b.toNat p =
    polyrem ((((clmul a.toNat b.toNat) / 2 ^ 32 % 2 ^ 32) * 2 ^ 32) + clmul a.toNat b.toNat % 2 ^ 32) p)

/-- R127: the laws of `mult` for valid elements of a field that SETDEG can build, and the ones that hold for all naturals. -/
def Obligations.MultLawsInAField : Prop :=
  (∀ m, 1 ≤ m → m ≤ 24 → ∀ a b, a < 2 ^ m → b < 2 ^ m →
    mult a 1 (irred m) = a ∧ (mult a b (irred m) = 0 → a = 0 ∨ b = 0)) ∧
  (∀ p, p ≠ 0 → ∀ a b c, mult a b p = mult b a p ∧ mult (mult a b p) c p = mult a (mult b c p) p ∧
    mult a (b ^^^ c) p = mult a b p ^^^ mult a c p ∧ mult a 0 p = 0 ∧ mult a 1 p = polyrem a p)

/-- R141, with the value of R140. -/
def Obligations.PowWritesThePower : Prop :=
  ∀ (rd rs1 rs2 : Reg) (s : State),
    encode (.pow rd rs1 rs2) =
      BitVec.ofNat 32 (0x12000000 ||| (rd.val <<< 20) ||| (rs1.val <<< 16) ||| (rs2.val <<< 12)) ∧
    (s.fv = false → exec (.pow rd rs1 rs2) s = .next { s with err := .noField, di := false }) ∧
    (s.fv = true → (readReg s rs2).toInt < 0 →
      exec (.pow rd rs1 rs2) s = .next { s with err := .negativeExponent, di := false }) ∧
    ((readReg s rs2).toInt < 0 ↔ (readReg s rs2).getLsbD 31 = true) ∧
    (s.fv = true → FieldRecordOk s → 0 ≤ (readReg s rs2).toInt → ∃ v : Word,
      v.toNat = pot (readReg s rs1).toNat (readReg s rs2).toNat s.modulus.toNat ∧ v.toNat < s.order.toNat ∧
      exec (.pow rd rs1 rs2) s = .next { s with x := s.x.set rd v, err := .ok, di := false } ∧
      (readReg s rs2 = 0 → v = 1) ∧
      (readReg s rs2 = 1 → v.toNat = polyrem (readReg s rs1).toNat s.modulus.toNat) ∧
      (readReg s rs2 = 2 → v.toNat = mult (readReg s rs1).toNat (readReg s rs1).toNat s.modulus.toNat) ∧
      (readReg s rs1 = 0 → readReg s rs2 ≠ 0 → v = 0) ∧ (readReg s rs1 = 1 → v = 1) ∧
      (s.degree = 4 → readReg s rs1 = 2 → readReg s rs2 = 4 → v = 3)) ∧
    encode (.pow 3 1 2) = 0x12312000

/-- R143: squaring gives the value of the naive chain for every base and exponent and every modulus of a field. -/
def Obligations.SquaringGivesThePower : Prop :=
  ∀ a n p : Nat, 2 ≤ bitlen p → potSquaring a n p = pot a n p

/-- R142, without its general-knowledge sentence. -/
def Obligations.PotLaws : Prop :=
  ∀ m, 1 ≤ m → m ≤ 24 → ∀ a i j n : Nat,
    pot a 0 (irred m) = 1 ∧ pot a 2 (irred m) = mult a a (irred m) ∧
    pot a (i + j) (irred m) = mult (pot a i (irred m)) (pot a j (irred m)) (irred m) ∧
    pot a (i * j) (irred m) = pot (pot a i (irred m)) j (irred m) ∧ pot a n (irred m) < 2 ^ m ∧
    (1 ≤ n → pot a n (irred m) = pot (polyrem a (irred m)) n (irred m))

/-- K1g of 93_implementation_defined.md, used in R142: a valid element that is not 0, to the power `ORDER - 1`, is 1. -/
def Obligations.NonzeroElementsHaveOrderDividing : Prop :=
  ∀ m, 1 ≤ m → m ≤ 24 → ∀ a, a ≠ 0 → a < 2 ^ m → pot a (2 ^ m - 1) (irred m) = 1

/-- R151. -/
def Obligations.PdivWritesTheQuotient : Prop :=
  ∀ (rd rs1 rs2 : Reg) (s : State),
    encode (.pdiv rd rs1 rs2) =
      BitVec.ofNat 32 (0x24000000 ||| (rd.val <<< 20) ||| (rs1.val <<< 16) ||| (rs2.val <<< 12)) ∧
    (readReg s rs2 = 0 → exec (.pdiv rd rs1 rs2) s = .next { s with err := .divideByZero, di := false }) ∧
    (readReg s rs2 ≠ 0 → ∃ v : Word, v.toNat = (polydivmod (readReg s rs1).toNat (readReg s rs2).toNat).1 ∧
      exec (.pdiv rd rs1 rs2) s = .next { s with x := s.x.set rd v, err := .ok, di := false } ∧
      (bitlen (readReg s rs1).toNat < bitlen (readReg s rs2).toNat → v = 0) ∧
      (readReg s rs2 = 1 → v = readReg s rs1) ∧ (readReg s rs1 = readReg s rs2 → v = 1) ∧
      (readReg s rs1 = 0x13 → readReg s rs2 = 6 → v = 7) ∧
      (readReg s rs1 = 0xDEADBEEF → readReg s rs2 = 0x13 → v = 0x0CB74777)) ∧
    encode (.pdiv 3 1 2) = 0x24312000

/-- R152. -/
def Obligations.PremWritesTheRemainder : Prop :=
  ∀ (rd rs1 rs2 : Reg) (s : State),
    encode (.prem rd rs1 rs2) =
      BitVec.ofNat 32 (0x25000000 ||| (rd.val <<< 20) ||| (rs1.val <<< 16) ||| (rs2.val <<< 12)) ∧
    (readReg s rs2 = 0 → exec (.prem rd rs1 rs2) s = .next { s with err := .divideByZero, di := false }) ∧
    (readReg s rs2 ≠ 0 → ∃ v : Word, v.toNat = (polydivmod (readReg s rs1).toNat (readReg s rs2).toNat).2 ∧
      bitlen v.toNat < bitlen (readReg s rs2).toNat ∧
      exec (.prem rd rs1 rs2) s = .next { s with x := s.x.set rd v, err := .ok, di := false } ∧
      (bitlen (readReg s rs1).toNat < bitlen (readReg s rs2).toNat → v = readReg s rs1) ∧
      (readReg s rs2 = 1 → v = 0) ∧ (readReg s rs1 = readReg s rs2 → v = 0) ∧
      (FieldRecordOk s → s.fv = true → (readReg s rs2).toNat = s.modulus.toNat →
        v.toNat = polyrem (0 * 2 ^ 32 + (readReg s rs1).toNat) s.modulus.toNat) ∧
      (readReg s rs1 = 0x13 → readReg s rs2 = 6 → v = 1) ∧
      (readReg s rs1 = 0xDEADBEEF → readReg s rs2 = 0x13 → v = 6)) ∧
    encode (.prem 3 1 2) = 0x25312000

/-- R154. -/
def Obligations.InvWritesInverseGcdAndFlag : Prop :=
  ∀ (rd rs1 : Reg) (s : State),
    encode (.inv rd rs1) = BitVec.ofNat 32 (0x13000000 ||| (rd.val <<< 20) ||| (rs1.val <<< 16)) ∧
    (s.fv = false → exec (.inv rd rs1) s = .next { s with err := .noField, di := false }) ∧
    (s.fv = true → FieldRecordOk s → ∃ (v : Word) (g : BitVec 25),
      v.toNat = (invEea (readReg s rs1).toNat s.modulus.toNat).1 ∧
      g.toNat = (invEea (readReg s rs1).toNat s.modulus.toNat).2 ∧ v.toNat < 2 ^ 25 ∧
      exec (.inv rd rs1) s = .next { s with x := s.x.set rd v, gcd := g, err := .ok, di := decide (g ≠ 1) } ∧
      (polyrem (readReg s rs1).toNat s.modulus.toNat = 0 → v = 0 ∧ g = s.modulus) ∧
      (readReg s rs1 = 1 → v = 1 ∧ g = 1) ∧
      (polyrem (readReg s rs1).toNat s.modulus.toNat ≠ 0 → g = 1 ∧
        v.toNat = (invEea (polyrem (readReg s rs1).toNat s.modulus.toNat) s.modulus.toNat).1) ∧
      (s.degree = 4 → readReg s rs1 = 6 → v = 7 ∧ g = 1) ∧ (s.degree = 4 → readReg s rs1 = 0 → v = 0 ∧ g = 0x13)) ∧
    encode (.inv 2 1) = 0x13210000

/-- R156, for the command: the inverse of an operand that the modulus does not divide, and the flagged 0 otherwise. -/
def Obligations.InvInvertsOrFlags : Prop :=
  ∀ (rd rs1 : Reg) (s : State), s.fv = true → FieldRecordOk s →
    ∃ t, exec (.inv rd rs1) s = .next t ∧ t.err = .ok ∧
      (polyrem (readReg s rs1).toNat s.modulus.toNat ≠ 0 →
        (readReg t rd).toNat < s.order.toNat ∧ t.gcd = 1 ∧ t.di = false ∧
        mult (readReg s rs1).toNat (readReg t rd).toNat s.modulus.toNat = 1) ∧
      (polyrem (readReg s rs1).toNat s.modulus.toNat = 0 → readReg t rd = 0 ∧ t.gcd = s.modulus ∧ t.di = true)

/-- R157. -/
def Obligations.InvLaws : Prop :=
  ∀ m, 1 ≤ m → m ≤ 24 →
    (∀ a, a ≠ 0 → a < 2 ^ m →
      mult a (invEea a (irred m)).1 (irred m) = 1 ∧ (invEea a (irred m)).1 < 2 ^ m ∧ (invEea a (irred m)).1 ≠ 0 ∧
      (invEea (invEea a (irred m)).1 (irred m)).1 = a ∧
      (∀ b, b ≠ 0 → b < 2 ^ m → (invEea (mult a b (irred m)) (irred m)).1 =
        mult (invEea a (irred m)).1 (invEea b (irred m)).1 (irred m))) ∧
    (invEea 1 (irred m)).1 = 1 ∧ invEea 0 (irred m) = (0, irred m) ∧
    (∀ a, polyrem a (irred m) ≠ 0 → (invEea a (irred m)).1 = (invEea (polyrem a (irred m)) (irred m)).1)

/-! ## Errors, status and the rules about all commands (60_exceptions.md, 10_state.md) -/

/-- R174: a command, legal or not, that ends with an error changed `ERR` and `DI` and nothing else, and `DI` is 0; the write
to `CMD` still responds `Done`; and the next command executes as it would whatever `ERR` and `DI` hold. -/
def Obligations.ErrorsArePrecise : Prop :=
  (∀ (w : Word) (s t : State), runCommand w s = .next t → t.err ≠ .ok → t = { s with err := t.err, di := false }) ∧
  (∀ (w : Word) (s t : State) (rest : List HostAction), runCommand w { s with pending := rest } = .next t →
    step { s with pending := .memWrite 0x40 4 w.toNat :: rest } =
      .next { t with responses := t.responses ++ [.done] }) ∧
  (∀ (w : Word) (s : State) (e : ErrCode) (d : Bool), ∃ t, runCommand w s = .next t ∧
    runCommand w { s with err := e, di := d } = .next t)

/-- R173, with the codes and the conditions of R171: a command reports the first error that the order of R170 meets; a
write to `CMD` of a wrong width or alignment is decided before any of this and delivers no command. -/
def Obligations.ErrorsFollowThePriority : Prop :=
  (errCode .ok = 0 ∧ errCode .invalidDegree = 1 ∧ errCode .negativeExponent = 2 ∧ errCode .noField = 3 ∧
    errCode .divideByZero = 4 ∧ errCode .illegalCommand = 5 ∧ ∀ e, (errCode e).toNat ≤ 5) ∧
  (∀ (i : Instr) (s t : State), exec i s = .next t → t.err = reportedError i s) ∧
  (∀ (i : Instr) (w : Word) (s : State), decode w = .cmd i → runCommand w s = exec i s) ∧
  (∀ (s : State) (off : Fin 256) (n v : Nat) (rest : List HostAction), 0x40 ≤ off.val → off.val ≤ 0x43 →
    ¬(off = 0x40 ∧ n = 4) → step { s with pending := .memWrite off n v :: rest } =
      .next { s with pending := rest, responses := s.responses ++ [.busError] }) ∧
  (∀ (rd rs1 rs2 : Reg) (s : State), s.fv = false → (readReg s rs2).getLsbD 31 = true →
    ∃ t, exec (.pow rd rs1 rs2) s = .next t ∧ t.err = .noField) ∧
  (∀ (w : Word) (s t : State) (why : Illegal), decode w = .illegal why → runCommand w s = .next t →
    t.err = .illegalCommand)

/-- What any command leaves unchanged (R170 step 6): every register but its destination, the host's list and the responses;
and without an error it writes the destination only. -/
def Obligations.OnlyTheDestinationIsWritten : Prop :=
  ∀ (i : Instr) (s t : State), exec i s = .next t →
    (∀ r : Reg, destination i ≠ some r → readReg t r = readReg s r) ∧
    t.pending = s.pending ∧ t.responses = s.responses

/-- R28: only an INV that ends without error writes `GCD`, with the gcd of its operand and `MODULUS`; it is below 2^25, and
the host reads it zero-extended and cannot write it. No other step of any kind changes it, a reset apart. -/
def Obligations.GcdWrittenOnlyByInv : Prop :=
  State.reset.gcd = 0 ∧
  (∀ (i : Instr) (s t : State), exec i s = .next t →
    (∀ rd rs1, i = .inv rd rs1 → s.fv = true →
      t.gcd.toNat = (invEea (readReg s rs1).toNat s.modulus.toNat).2) ∧
    ((¬ ∃ rd rs1, i = .inv rd rs1) ∨ t.err ≠ .ok → t.gcd = s.gcd) ∧
    (∀ rd rs1, i = .inv rd rs1 → s.fv = true → FieldRecordOk s → t.gcd.toNat ≠ 0 ∧
      polyrem (readReg s rs1).toNat t.gcd.toNat = 0 ∧ polyrem s.modulus.toNat t.gcd.toNat = 0 ∧
      ∀ f, f ≠ 0 → polyrem (readReg s rs1).toNat f = 0 → polyrem s.modulus.toNat f = 0 →
        polyrem t.gcd.toNat f = 0)) ∧
  (∀ (w : Word) (s t : State), runCommand w s = .next t →
    (¬ ∃ rd rs1, decode w = .cmd (.inv rd rs1)) ∨ t.err ≠ .ok → t.gcd = s.gcd) ∧
  (∀ s t : State, step s = .next t → t.gcd = s.gcd ∨ (∃ rest, s.pending = .reset :: rest ∧ t.gcd = 0) ∨
    ∃ off v rest rd rs1, s.pending = .memWrite off 4 v :: rest ∧ windowReg off.val = some .cmd ∧
      decode (BitVec.ofNat 32 v) = .cmd (.inv rd rs1) ∧ s.fv = true ∧ t.err = .ok ∧
      t.gcd.toNat = (invEea (readReg s rs1).toNat s.modulus.toNat).2) ∧
  (∀ (s t : State) (off : Fin 256) (n : Nat) (rest : List HostAction),
    step { s with pending := .memRead off n :: rest } = .next t →
      (windowReg off.val = some .gcd → n = 4 → t.responses = s.responses ++ [.data (s.gcd.zeroExtend 32)]) ∧
      t.gcd = s.gcd) ∧
  (∀ (s : State) (rest : List HostAction) (n v : Nat), step { s with pending := .memWrite 0x54 n v :: rest } =
    .next { s with pending := rest, responses := s.responses ++ [.busError] })

/-- R26: the bits of `STATUS` and their values at reset; `ERR` and `DI` describe the most recent command only, whether it
was legal or not, and `ERR` is its outcome; the copy of `FV` changes by a successful SETDEG only (a reset apart); a read of `STATUS` has no side
effect, and the host cannot write it. -/
def Obligations.StatusDescribesTheLastCommand : Prop :=
  (∀ s : State, (statusWord s).toNat =
    (errCode s.err).toNat + (if s.di then 16 else 0) + (if s.fv then 256 else 0) ∧ (errCode s.err).toNat ≤ 5) ∧
  statusWord State.reset = 0 ∧
  (∀ (w : Word) (s t : State), runCommand w s = .next t →
    (t.di = true ↔ ∃ rd rs1, decode w = .cmd (.inv rd rs1) ∧ s.fv = true ∧
      (invEea (readReg s rs1).toNat s.modulus.toNat).2 ≠ 1) ∧
    (t.fv = true ↔ s.fv = true ∨ ∃ imm, decode w = .cmd (.setdeg imm) ∧ 1 ≤ imm ∧ imm ≤ 24) ∧
    (∀ i, decode w = .cmd i → t.err = reportedError i s) ∧
    (∀ why, decode w = .illegal why → t.err = .illegalCommand)) ∧
  (∀ (w : Word) (s s' t t' : State), { s with err := .ok, di := false } = { s' with err := .ok, di := false } →
    runCommand w s = .next t → runCommand w s' = .next t' → t = t') ∧
  (∀ (s : State) (rest : List HostAction), step { s with pending := .memRead 0x44 4 :: rest } =
    .next { s with pending := rest, responses := s.responses ++ [.data (statusWord s)] }) ∧
  (∀ (s : State) (rest : List HostAction) (n v : Nat), step { s with pending := .memWrite 0x44 n v :: rest } =
    .next { s with pending := rest, responses := s.responses ++ [.busError] })

/-- R10: what a command reports and writes is a function of the field record and of its source operands; it depends on no
other register, and not on `STATUS`, `GCD`, the host's list or the responses. -/
def Obligations.ResultsArePure : Prop :=
  ∀ (i : Instr) (s s' t t' : State), s.fv = s'.fv → s.degree = s'.degree → s.order = s'.order →
    s.modulus = s'.modulus → (∀ r ∈ sources i, readReg s r = readReg s' r) →
    exec i s = .next t → exec i s' = .next t' →
      t.err = t'.err ∧ t.di = t'.di ∧ t.fv = t'.fv ∧ t.degree = t'.degree ∧ t.order = t'.order ∧ t.modulus = t'.modulus ∧
      (t.err = .ok → ∀ rd, destination i = some rd → readReg t rd = readReg t' rd) ∧
      (t.err = .ok → ∀ rd rs1, i = .inv rd rs1 → t.gcd = t'.gcd)

/-- R22, the headline invariant: every step keeps the field record whole (and `DI` meaningful, R26), and only a
successful SETDEG or a reset changes any part of it. -/
def Obligations.EveryStepKeepsTheInvariant : Prop :=
  ∀ s t : State, Inv s → step s = .next t →
    Inv t ∧
    ((t.fv = s.fv ∧ t.degree = s.degree ∧ t.order = s.order ∧ t.modulus = s.modulus) ∨
      (∃ rest, s.pending = .reset :: rest) ∨
      (∃ off n v rest imm, s.pending = .memWrite off n v :: rest ∧ windowReg off.val = some .cmd ∧
        decode (BitVec.ofNat 32 v) = .cmd (.setdeg imm) ∧ 1 ≤ imm ∧ imm ≤ 24 ∧ t.degree.toNat = imm))

/-- The reset state meets the invariant. -/
def Obligations.ResetMeetsTheInvariant : Prop := Inv State.reset

/-! ## Reset (70_reset_and_hazards.md) -/

/-- R33. -/
def Obligations.ResetValues : Prop :=
  (∀ r : Reg, readReg State.reset r = 0) ∧ State.reset.fv = false ∧ State.reset.degree = 0 ∧ State.reset.order = 0 ∧
  State.reset.modulus = 0 ∧ State.reset.err = .ok ∧ State.reset.di = false ∧ State.reset.gcd = 0 ∧
  statusWord State.reset = 0x00000000

/-- R200, for a reset between two transactions: it maps every state to the reset state, whatever the state was; the host's
remaining list and the responses are not the block's (the model's own fields, log 1 and log 8). -/
def Obligations.ResetReplacesEveryState : Prop :=
  ∀ (s : State) (rest : List HostAction),
    step { s with pending := .reset :: rest } = .next { State.reset with pending := rest, responses := s.responses }

/-! ## The register window (20_memory.md) -/

/-- R53: what each readable offset returns, that a read changes no state of the block, and that reading twice returns the
same value. -/
def Obligations.ReadsReturnTheRegisters : Prop :=
  ∀ (s : State) (rest : List HostAction) (off : Fin 256) (v : Word),
    ((∃ r : Reg, off.val = 4 * r.val ∧ v = readReg s r) ∨
      (off = 0x44 ∧ v = (errCode s.err).zeroExtend 32 ||| (flagWord s.di <<< 4) ||| (flagWord s.fv <<< 8)) ∨
      (off = 0x48 ∧ v.toNat = s.degree.toNat) ∨ (off = 0x4C ∧ v.toNat = s.order.toNat) ∨
      (off = 0x50 ∧ v.toNat = s.modulus.toNat) ∨ (off = 0x54 ∧ v.toNat = s.gcd.toNat)) →
    step { s with pending := .memRead off 4 :: rest } =
      .next { s with pending := rest, responses := s.responses ++ [.data v] } ∧
    Host.Core.run core 2 { s with pending := .memRead off 4 :: .memRead off 4 :: rest } =
      .next { s with pending := rest, responses := s.responses ++ [.data v, .data v] }

/-- R54: a write of a general register replaces all its 32 bits and nothing else; `STATUS` is not touched. -/
def Obligations.RegisterWritesReplace : Prop :=
  ∀ (s : State) (rest : List HostAction) (r : Reg) (off : Fin 256) (v : Word), off.val = 4 * r.val →
    step { s with pending := .memWrite off 4 v.toNat :: rest } =
      .next { s with pending := rest, x := s.x.set r v, responses := s.responses ++ [.done] }

/-- R52, R55: a transaction is answered with `BusError`, with no state change at all, exactly when it is not legal. -/
def Obligations.IllegalTransactionsAreRefused : Prop :=
  ∀ (a : HostAction) (s : State) (rest : List HostAction), a ≠ .reset →
    (¬ LegalTransaction a → step { s with pending := a :: rest } =
      .next { s with pending := rest, responses := s.responses ++ [.busError] }) ∧
    (LegalTransaction a → ∃ t r, step { s with pending := a :: rest } = .next t ∧
      t.responses = s.responses ++ [r] ∧ r ≠ .busError)

/-- R27, R102: a host read of `DEGREE`, `ORDER` or `MODULUS` returns the item of the field record, writes nothing and cannot
fail; the three read 0 while no field exists; the host cannot write them. -/
def Obligations.AccessorsReadTheFieldRecord : Prop :=
  ∀ (s : State) (rest : List HostAction), FieldRecordOk s → ∃ d q p : Word,
    step { s with pending := .memRead 0x48 4 :: rest } =
      .next { s with pending := rest, responses := s.responses ++ [.data d] } ∧
    step { s with pending := .memRead 0x4C 4 :: rest } =
      .next { s with pending := rest, responses := s.responses ++ [.data q] } ∧
    step { s with pending := .memRead 0x50 4 :: rest } =
      .next { s with pending := rest, responses := s.responses ++ [.data p] } ∧
    (∀ (off : Fin 256) (n v : Nat), off = 0x48 ∨ off = 0x4C ∨ off = 0x50 →
      step { s with pending := .memWrite off n v :: rest } =
        .next { s with pending := rest, responses := s.responses ++ [.busError] }) ∧
    d.toNat = s.degree.toNat ∧ q.toNat = s.order.toNat ∧ p.toNat = s.modulus.toNat ∧
    (s.fv = false → d = 0 ∧ q = 0 ∧ p = 0) ∧
    (s.fv = true → 1 ≤ d.toNat ∧ d.toNat ≤ 24 ∧ q.toNat = 2 ^ d.toNat ∧ p.toNat = irred d.toNat)

/-- R62: a read returns what the latest write left, and a write of one register leaves the others alone. -/
def Obligations.ReadAfterRegisterWrite : Prop :=
  ∀ (s : State) (rest : List HostAction) (r q : Reg) (off off' : Fin 256) (v : Word),
    off.val = 4 * r.val → off'.val = 4 * q.val →
    Host.Core.run core 2 { s with pending := .memWrite off 4 v.toNat :: .memRead off' 4 :: rest } =
      .next { s with pending := rest, x := s.x.set r v,
                     responses := s.responses ++ [.done, .data (if q = r then v else readReg s q)] }

/-- R57: the byte at `off + k` of a readable word is bits `8k+7 : 8k`, and the four of them are the word. -/
def Obligations.ByteLanesAreLittleEndian : Prop :=
  ∀ (s : State) (off : Fin 256) (v : Word), busRead off.val 4 s = .data v →
    (∀ k, k < 4 → ∃ b, windowByte s (off.val + k) = some b ∧ ∀ j, j < 8 → b.getLsbD j = v.getLsbD (8 * k + j)) ∧
    (∃ b0 b1 b2 b3 : BitVec 8, windowByte s off.val = some b0 ∧ windowByte s (off.val + 1) = some b1 ∧
      windowByte s (off.val + 2) = some b2 ∧ windowByte s (off.val + 3) = some b3 ∧
      v.toNat = b0.toNat + 2 ^ 8 * b1.toNat + 2 ^ 16 * b2.toNat + 2 ^ 24 * b3.toNat)

/-- R50: `BASE` is a multiple of 4, so an offset is word-aligned exactly when its bus address is. -/
def Obligations.BusAddressAlignment : Prop :=
  Config.base % 4 = 0 ∧ ∀ off : Fin 256, busAddress off % 4 = 0 ↔ off.val % 4 = 0

/-! ## Runs (20_memory.md R62; 70_reset_and_hazards.md R207; 60_exceptions.md R186) -/

/-- R207: a run of a list of host actions ends after the last one, with nothing left, with one response for each
transaction in order and none for a reset. -/
def Obligations.RunsServeTheWholeList : Prop :=
  ∀ (actions : List HostAction) (s : State),
    ∃ t new, Host.Core.run core actions.length { s with pending := actions } = .next t ∧ t.pending = [] ∧
      t.responses = s.responses ++ new ∧ new.length = (actions.filter fun a => decide (a ≠ .reset)).length

/-- R62: the state after a sequence of actions is that of applying them in turn: a run of one list after another is the
run of the second from the end of the first. -/
def Obligations.RunsCompose : Prop :=
  ∀ (first second : List HostAction) (s t : State),
    Host.Core.run core first.length { s with pending := first } = .next t →
    Host.Core.run core (first ++ second).length { s with pending := first ++ second } =
      Host.Core.run core second.length { t with pending := second }

/-- R186: a host whose program does not look at what it reads runs as its list does; where the list has no reset, it may
find its place by the number of responses alone. That a reset counts as an action taken is the model's choice (log 9). -/
def Obligations.ProgramsOfAFixedListRunTheList : Prop :=
  (∀ (actions : List HostAction) (s : State), s.pending = [] →
    runProgram (fun taken _ => actions[taken]?) (actions.length + 1) 0 s =
      Host.Core.run core actions.length { s with pending := actions }) ∧
  (∀ (actions : List HostAction) (s : State), (∀ a ∈ actions, a ≠ .reset) → s.pending = [] →
    runProgram (fun _ seen => actions[seen.length - s.responses.length]?) (actions.length + 1) 0 s =
      Host.Core.run core actions.length { s with pending := actions })

/-! ## The table of irreducible polynomials (10_state.md R23 to R25) -/

/-- R23: every entry is monic of its degree and has no proper factor, and it fits `MODULUS`. -/
def Obligations.IrredMeetsItsConstraints : Prop :=
  ∀ m, 1 ≤ m → m ≤ 24 → bitlen (irred m) = m + 1 ∧ NoProperFactor (irred m) ∧ irred m < 2 ^ 25

/-- R24, R25: the forced and narrowed entries. -/
def Obligations.ForcedIrredEntries : Prop :=
  irred 4 = 0x13 ∧ irred 2 = 0x7 ∧
  (∀ v, bitlen v = 3 ∧ NoProperFactor v ↔ v = 0x7) ∧
  (∀ v, bitlen v = 2 ∧ NoProperFactor v ↔ v = 0x2 ∨ v = 0x3) ∧
  (∀ v, bitlen v = 4 ∧ NoProperFactor v ↔ v = 0xB ∨ v = 0xD) ∧
  (∀ v, bitlen v = 5 ∧ NoProperFactor v ↔ v = 0x13 ∨ v = 0x19 ∨ v = 0x1F)

/-- The model's own (log 3): the table of any free function meets R23 and R24, and every table that meets them is the table
of a free function, namely of itself. So what is proved of the model holds for every legal table. -/
def Obligations.EveryLegalTableIsATable : Prop :=
  (∀ (free : Nat → Nat) (m : Nat), 1 ≤ m → m ≤ 24 →
    bitlen (irredOf free m) = m + 1 ∧ NoProperFactor (irredOf free m) ∧ (m = 4 → irredOf free m = 0x13)) ∧
  (∀ table : Nat → Nat, (∀ m, 1 ≤ m → m ≤ 24 → bitlen (table m) = m + 1 ∧ NoProperFactor (table m)) → table 4 = 0x13 →
    ∀ m, 1 ≤ m → m ≤ 24 → irredOf table m = table m)
end

