-- ==== Sys2Proof/Laws/Gf2.lean ====
section
/-! SUPPORT. The arithmetic functions as polynomials over GF(2): `toPoly n` is the polynomial whose coefficient of x^i is
bit i of n (spec/00_scope.md R6), and each function of Machine/Gf2.lean is carried over to Mathlib's polynomials. A law of
the spec about naturals then follows from the law of polynomials by `toPoly_injective`. -/

namespace Sys2Proof.Gf2

open Polynomial

/-! ## Bit length (R110) -/

@[simp] theorem bitlen_zero : bitlen 0 = 0 := rfl

theorem lt_bitlen_iff {k v : Nat} : k < bitlen v ↔ 2 ^ k ≤ v := by
  unfold bitlen
  split
  · subst v; simp
  · rename_i h
    rw [Nat.lt_one_add_iff, Nat.le_log2 h]

theorem bitlen_le_iff {k v : Nat} : bitlen v ≤ k ↔ v < 2 ^ k := by
  rw [← Nat.not_lt, lt_bitlen_iff, Nat.not_le]

theorem lt_two_pow_bitlen (v : Nat) : v < 2 ^ bitlen v := bitlen_le_iff.1 le_rfl

@[simp] theorem bitlen_eq_zero {v : Nat} : bitlen v = 0 ↔ v = 0 := by
  rw [← Nat.le_zero, bitlen_le_iff]; simp

theorem bitlen_pos {v : Nat} : 0 < bitlen v ↔ v ≠ 0 := by
  rw [Nat.pos_iff_ne_zero, Ne, bitlen_eq_zero]

theorem testBit_of_bitlen_le {v i : Nat} (h : bitlen v ≤ i) : v.testBit i = false :=
  Nat.testBit_lt_two_pow (bitlen_le_iff.1 h)

theorem testBit_bitlen_pred {v : Nat} (h : v ≠ 0) : v.testBit (bitlen v - 1) = true := by
  simp [bitlen, h, Nat.testBit_log2]

theorem lt_bitlen_of_testBit {v i : Nat} (h : v.testBit i = true) : i < bitlen v :=
  lt_bitlen_iff.2 (Nat.ge_two_pow_of_testBit h)

theorem bitlen_shiftLeft {v : Nat} (h : v ≠ 0) (k : Nat) : bitlen (v <<< k) = bitlen v + k := by
  apply Nat.le_antisymm
  · rw [bitlen_le_iff, Nat.shiftLeft_eq, pow_add]
    exact Nat.mul_lt_mul_of_pos_right (lt_two_pow_bitlen v) (by positivity)
  · have h1 : 0 < bitlen v := bitlen_pos.2 h
    have h2 : (v <<< k).testBit (bitlen v - 1 + k) = true := by
      rw [Nat.testBit_shiftLeft]; simp [testBit_bitlen_pred h]
    have := lt_bitlen_of_testBit h2
    omega

theorem bitlen_xor_le {a b k : Nat} (ha : bitlen a ≤ k) (hb : bitlen b ≤ k) : bitlen (a ^^^ b) ≤ k :=
  bitlen_le_iff.2 (Nat.xor_lt_two_pow (bitlen_le_iff.1 ha) (bitlen_le_iff.1 hb))

/-- Two values of one bit length cancel their leading bits. -/
theorem bitlen_xor_lt {a b : Nat} (ha : a ≠ 0) (h : bitlen a = bitlen b) : bitlen (a ^^^ b) < bitlen a := by
  have hb : b ≠ 0 := by rw [← bitlen_pos, ← h, bitlen_pos]; exact ha
  have hpos : 0 < bitlen a := bitlen_pos.2 ha
  have hle : bitlen (a ^^^ b) ≤ bitlen a := bitlen_xor_le le_rfl h.ge
  refine lt_of_le_of_ne hle fun heq => ?_
  have hne : a ^^^ b ≠ 0 := by rw [← bitlen_pos, heq]; exact hpos
  have ht := testBit_bitlen_pred hne
  rw [heq, Nat.testBit_xor, testBit_bitlen_pred ha, h, testBit_bitlen_pred hb] at ht
  simp at ht

/-- One pass of a reduction shortens the working value (R121, R150). -/
theorem bitlen_reduce_lt {d p : Nat} (hp : p ≠ 0) (h : bitlen p ≤ bitlen d) :
    bitlen (d ^^^ (p <<< (bitlen d - bitlen p))) < bitlen d := by
  have hd : d ≠ 0 := by have := bitlen_pos.2 hp; rw [← bitlen_pos]; omega
  exact bitlen_xor_lt hd (by rw [bitlen_shiftLeft hp]; omega)

/-! ## Naturals as polynomials over GF(2) (R6) -/

/-- The polynomial that a natural encodes (R6). -/
noncomputable def toPoly (n : Nat) : (ZMod 2)[X] :=
  ∑ i ∈ Finset.range (bitlen n), if n.testBit i then X ^ i else 0

theorem coeff_toPoly (n i : Nat) : (toPoly n).coeff i = if n.testBit i then 1 else 0 := by
  have : ∀ j, (if n.testBit j then (X : (ZMod 2)[X]) ^ j else 0).coeff i =
      if i = j then (if n.testBit i then 1 else 0) else 0 := by
    intro j
    by_cases hij : i = j
    · subst hij; by_cases h : n.testBit i <;> simp [h]
    · by_cases h : n.testBit j <;> simp [h, hij, coeff_X_pow]
  simp only [toPoly, finsetSum_coeff, this]
  rw [Finset.sum_ite_eq]
  by_cases h : n.testBit i
  · simp [h, lt_bitlen_of_testBit h]
  · simp [h]

theorem toPoly_injective : Function.Injective toPoly := by
  intro a b h
  apply Nat.eq_of_testBit_eq
  intro i
  have := congrArg (fun p => p.coeff i) h
  simp only [coeff_toPoly] at this
  by_cases ha : a.testBit i <;> by_cases hb : b.testBit i <;> simp_all

theorem toPoly_inj {a b : Nat} : toPoly a = toPoly b ↔ a = b := toPoly_injective.eq_iff

@[simp] theorem toPoly_zero : toPoly 0 = 0 := by simp [toPoly]

@[simp] theorem toPoly_one : toPoly 1 = 1 := by
  ext i; rw [coeff_toPoly, coeff_one]
  by_cases h : i = 0
  · subst h; simp
  · have : Nat.testBit 1 i = false := Nat.testBit_lt_two_pow (Nat.one_lt_two_pow h)
    simp [this, h]

@[simp] theorem toPoly_eq_zero {a : Nat} : toPoly a = 0 ↔ a = 0 := by
  rw [← toPoly_zero, toPoly_inj]

@[simp] theorem toPoly_xor (a b : Nat) : toPoly (a ^^^ b) = toPoly a + toPoly b := by
  ext i
  rw [coeff_add, coeff_toPoly, coeff_toPoly, coeff_toPoly, Nat.testBit_xor]
  cases a.testBit i <;> cases b.testBit i <;> decide

@[simp] theorem toPoly_shiftLeft (a k : Nat) : toPoly (a <<< k) = toPoly a * X ^ k := by
  ext i
  rw [coeff_mul_X_pow', coeff_toPoly, coeff_toPoly, Nat.testBit_shiftLeft]
  by_cases h : k ≤ i <;> simp [h]

theorem poly_add_self (f : (ZMod 2)[X]) : f + f = 0 := by
  rw [← two_mul, show (2 : (ZMod 2)[X]) = 0 from by
    have : ((2 : ZMod 2)) = 0 := rfl
    rw [← C_ofNat, this, C_0], zero_mul]

theorem poly_neg (f : (ZMod 2)[X]) : -f = f := neg_eq_of_add_eq_zero_left (poly_add_self f)

theorem poly_sub (f g : (ZMod 2)[X]) : f - g = f + g := by rw [sub_eq_add_neg, poly_neg]

/-- The degree of a polynomial that is not zero is its bit length less one (R110). -/
theorem natDegree_toPoly {a : Nat} (h : a ≠ 0) : (toPoly a).natDegree = bitlen a - 1 := by
  apply natDegree_eq_of_le_of_coeff_ne_zero
  · rw [natDegree_le_iff_coeff_eq_zero]
    intro i hi
    rw [coeff_toPoly, testBit_of_bitlen_le (by omega)]; simp
  · rw [coeff_toPoly, testBit_bitlen_pred h]; simp

theorem degree_toPoly_lt_iff (a k : Nat) : (toPoly a).degree < k ↔ bitlen a ≤ k := by
  by_cases h : a = 0
  · subst h; simp
  · rw [degree_eq_natDegree (by simpa using h), natDegree_toPoly h, Nat.cast_lt]
    have := bitlen_pos.2 h
    omega

theorem degree_toPoly_lt {a b : Nat} (hb : b ≠ 0) : (toPoly a).degree < (toPoly b).degree ↔ bitlen a < bitlen b := by
  rw [degree_eq_natDegree (p := toPoly b) (by simpa using hb), natDegree_toPoly hb, degree_toPoly_lt_iff]
  have := bitlen_pos.2 hb
  omega

theorem monic_toPoly {a : Nat} (h : a ≠ 0) : (toPoly a).Monic := by
  rw [Monic, leadingCoeff, natDegree_toPoly h, coeff_toPoly, testBit_bitlen_pred h]; simp

/-- Every polynomial over GF(2) is the polynomial of a natural. -/
theorem toPoly_surjective : Function.Surjective toPoly := by
  intro f
  induction f using Polynomial.induction_on' with
  | add p q hp hq =>
    obtain ⟨a, rfl⟩ := hp
    obtain ⟨b, rfl⟩ := hq
    exact ⟨a ^^^ b, toPoly_xor a b⟩
  | monomial n c =>
    by_cases hc : c = 0
    · exact ⟨0, by simp [hc]⟩
    · have : c = 1 := by revert hc; revert c; decide
      exact ⟨1 <<< n, by simp [this, ← X_pow_eq_monomial]⟩

/-! ## The functions -/

theorem toPoly_split (b : Nat) : toPoly b = toPoly (b >>> 1) * X + if b.testBit 0 then 1 else 0 := by
  ext i
  rw [coeff_add, coeff_toPoly]
  cases i with
  | zero => cases b.testBit 0 <;> simp
  | succ i =>
    rw [coeff_mul_X, coeff_toPoly, Nat.testBit_shiftRight, Nat.add_comm 1 i]
    cases b.testBit 0 <;> simp [coeff_one]

theorem toPoly_clmulLoop (a b : Nat) : ∀ passes i r, bitlen (b >>> i) ≤ passes →
    toPoly (clmulLoop a b passes i r) = toPoly r + toPoly a * X ^ i * toPoly (b >>> i)
  | 0, i, r, h => by
    have h0 : b >>> i = 0 := by simpa using h
    simp [clmulLoop, h0]
  | passes + 1, i, r, h => by
    unfold clmulLoop
    split
    · rename_i h0; simp [h0]
    · rename_i h0
      have hs : b >>> i >>> 1 = b >>> (i + 1) := (Nat.shiftRight_add b i 1).symm
      have hlen : bitlen (b >>> (i + 1)) ≤ passes := by
        rw [bitlen_le_iff] at h ⊢
        rw [← hs, Nat.shiftRight_one]
        rw [pow_succ] at h; omega
      rw [toPoly_clmulLoop a b passes (i + 1) _ hlen, toPoly_split (b >>> i), hs, Nat.testBit_shiftRight]
      simp only [Nat.add_zero]
      cases b.testBit i <;> simp [pow_succ] <;> ring

/-- `clmul` is the product of polynomials over GF(2) (R120). -/
@[simp] theorem toPoly_clmul (a b : Nat) : toPoly (clmul a b) = toPoly a * toPoly b := by
  rw [clmul, toPoly_clmulLoop a b (bitlen b) 0 0 (by simp)]; simp

theorem polyremLoop_dvd (p : Nat) : ∀ passes r, toPoly p ∣ toPoly r - toPoly (polyremLoop p passes r)
  | 0, r => by simp [polyremLoop]
  | passes + 1, r => by
    unfold polyremLoop
    split
    · have h := polyremLoop_dvd p passes (r ^^^ (p <<< (bitlen r - bitlen p)))
      rw [toPoly_xor, toPoly_shiftLeft] at h
      have h2 : toPoly p ∣ toPoly p * X ^ (bitlen r - bitlen p) := dvd_mul_right _ _
      have := dvd_sub h h2
      ring_nf at this ⊢
      exact this
    · simp

theorem bitlen_polyremLoop_lt {p : Nat} (hp : p ≠ 0) : ∀ passes r, bitlen r ≤ passes →
    bitlen (polyremLoop p passes r) < bitlen p
  | 0, r, h => by simpa [polyremLoop, Nat.le_zero.1 h] using bitlen_pos.2 hp
  | passes + 1, r, h => by
    unfold polyremLoop
    split
    · rename_i hle
      exact bitlen_polyremLoop_lt hp passes _ (by have := bitlen_reduce_lt hp hle; omega)
    · omega

theorem bitlen_polyrem_lt {p : Nat} (hp : p ≠ 0) (r : Nat) : bitlen (polyrem r p) < bitlen p :=
  bitlen_polyremLoop_lt hp _ r le_rfl

/-- `polyrem` is the remainder of polynomials over GF(2) (R121). -/
theorem toPoly_polyrem {p : Nat} (hp : p ≠ 0) (r : Nat) : toPoly (polyrem r p) = toPoly r %ₘ toPoly p := by
  obtain ⟨q, hq⟩ := polyremLoop_dvd p (bitlen r) r
  refine ((div_modByMonic_unique q (toPoly (polyrem r p)) (monic_toPoly hp) ⟨?_, ?_⟩).2).symm
  · rw [polyrem, ← hq]; ring
  · rw [degree_toPoly_lt hp]; exact bitlen_polyrem_lt hp r

theorem toPoly_mult {p : Nat} (hp : p ≠ 0) (a b : Nat) :
    toPoly (mult a b p) = (toPoly a * toPoly b) %ₘ toPoly p := by
  rw [mult, toPoly_polyrem hp, toPoly_clmul]

/-- Two naturals have one remainder exactly when the modulus divides their difference. -/
theorem polyrem_eq_iff {p : Nat} (hp : p ≠ 0) (a b : Nat) : polyrem a p = polyrem b p ↔ toPoly p ∣ toPoly a - toPoly b := by
  rw [← toPoly_inj, toPoly_polyrem hp, toPoly_polyrem hp, ← sub_eq_zero, ← sub_modByMonic,
    modByMonic_eq_zero_iff_dvd (monic_toPoly hp)]

theorem polyrem_eq_zero_iff {p : Nat} (hp : p ≠ 0) (a : Nat) : polyrem a p = 0 ↔ toPoly p ∣ toPoly a := by
  rw [← toPoly_inj, toPoly_polyrem hp, toPoly_zero, modByMonic_eq_zero_iff_dvd (monic_toPoly hp)]

theorem polyrem_of_lt {p r : Nat} (h : bitlen r < bitlen p) : polyrem r p = r := by
  unfold polyrem
  cases hb : bitlen r with
  | zero => rfl
  | succ n => unfold polyremLoop; rw [if_neg (by omega)]

theorem polydivmodLoop_spec {p : Nat} (hp : p ≠ 0) : ∀ passes c d, bitlen d ≤ passes →
    2 ^ (bitlen d + 1 - bitlen p) ∣ c →
    toPoly (polydivmodLoop p passes c d).1 * toPoly p + toPoly (polydivmodLoop p passes c d).2
      = toPoly c * toPoly p + toPoly d ∧
    bitlen (polydivmodLoop p passes c d).2 < bitlen p
  | 0, c, d, h, _ => by
    have hd : d = 0 := by simpa using h
    subst hd
    exact ⟨rfl, by simpa [polydivmodLoop] using bitlen_pos.2 hp⟩
  | passes + 1, c, d, h, hc => by
    unfold polydivmodLoop
    split
    · rename_i hle
      have hlt := bitlen_reduce_lt hp hle
      set k := bitlen d - bitlen p with hk
      have hor : c ||| (1 <<< k) = c ^^^ (1 <<< k) := by
        apply Nat.eq_of_testBit_eq
        intro i
        rw [Nat.testBit_or, Nat.testBit_xor]
        by_cases hi : i = k
        · obtain ⟨e, rfl⟩ := hc
          have : (2 ^ (bitlen d + 1 - bitlen p) * e).testBit i = false := by
            rw [Nat.testBit_two_pow_mul]; simp; omega
          simp [this]
        · have : (1 <<< k).testBit i = false := by
            rw [Nat.one_shiftLeft, Nat.testBit_two_pow]; simpa using fun h => hi h.symm
          simp [this]
      have hdvd : 2 ^ (bitlen (d ^^^ (p <<< k)) + 1 - bitlen p) ∣ c ||| (1 <<< k) := by
        have h1 : 2 ^ k ∣ c := dvd_trans (pow_dvd_pow 2 (by omega)) hc
        have h2 : 2 ^ k ∣ c ||| (1 <<< k) := by
          obtain ⟨e, rfl⟩ := h1
          refine ⟨e ||| 1, ?_⟩
          apply Nat.eq_of_testBit_eq
          intro i
          rw [Nat.testBit_or, Nat.testBit_two_pow_mul, Nat.testBit_two_pow_mul, Nat.testBit_or, Nat.testBit_shiftLeft]
          by_cases hi : k ≤ i <;> simp [hi]
        exact dvd_trans (pow_dvd_pow 2 (by omega)) h2
      obtain ⟨ih1, ih2⟩ := polydivmodLoop_spec hp passes _ (d ^^^ (p <<< k)) (by omega) hdvd
      refine ⟨?_, ih2⟩
      rw [ih1, hor]
      simp only [toPoly_xor, toPoly_shiftLeft, toPoly_one, one_mul]
      have := poly_add_self (toPoly p * X ^ k)
      linear_combination this
    · rename_i hlt
      exact ⟨rfl, Nat.not_le.1 hlt⟩

/-- `polydivmod` divides polynomials over GF(2) (R150). -/
theorem toPoly_polydivmod {p : Nat} (hp : p ≠ 0) (n : Nat) :
    toPoly (polydivmod n p).1 * toPoly p + toPoly (polydivmod n p).2 = toPoly n ∧
    bitlen (polydivmod n p).2 < bitlen p := by
  obtain ⟨h1, h2⟩ := polydivmodLoop_spec hp (bitlen n) 0 n le_rfl (dvd_zero _)
  exact ⟨by rw [polydivmod, h1]; simp, h2⟩

theorem toPoly_polydivmod_fst {p : Nat} (hp : p ≠ 0) (n : Nat) : toPoly (polydivmod n p).1 = toPoly n /ₘ toPoly p := by
  obtain ⟨h1, h2⟩ := toPoly_polydivmod hp n
  refine ((div_modByMonic_unique _ (toPoly (polydivmod n p).2) (monic_toPoly hp) ⟨?_, ?_⟩).1).symm
  · rw [← h1]; ring
  · rwa [degree_toPoly_lt hp]

theorem toPoly_polydivmod_snd {p : Nat} (hp : p ≠ 0) (n : Nat) : toPoly (polydivmod n p).2 = toPoly n %ₘ toPoly p := by
  obtain ⟨h1, h2⟩ := toPoly_polydivmod hp n
  refine ((div_modByMonic_unique (toPoly (polydivmod n p).1) _ (monic_toPoly hp) ⟨?_, ?_⟩).2).symm
  · rw [← h1]; ring
  · rwa [degree_toPoly_lt hp]

end Sys2Proof.Gf2
end

