-- ==== Sys2Proof/Laws/InvEea.lean ====
section
/-! SUPPORT. The extended Euclidean loop of Machine/Gf2.lean over Mathlib's polynomials (spec/44_division_inverse.md R153 to
R155): the Bézout invariant, the gcd, the sizes, and that the bound on its passes is never what ends it. -/

namespace Sys2Proof.Gf2

open Polynomial

theorem invEeaLoop_succ (passes r0 r1 s0 s1 : Nat) :
    invEeaLoop (passes + 1) r0 r1 s0 s1 =
      if (polydivmod r0 r1).2 = 0 then (s1, r1)
      else invEeaLoop passes r1 (polydivmod r0 r1).2 s1 (clmul (polydivmod r0 r1).1 s1 ^^^ s0) := rfl

/-- What holds of the pair the loop returns, from what holds at the top of a pass: `P` is any relation between a
remainder and its coefficient that division keeps. -/
theorem invEeaLoop_induction {P : Nat → Nat → Nat → Nat → Prop} {Q : Nat → Nat → Prop}
    (hstep : ∀ r0 r1 s0 s1, r1 ≠ 0 → P r0 r1 s0 s1 → (polydivmod r0 r1).2 ≠ 0 →
      P r1 (polydivmod r0 r1).2 s1 (clmul (polydivmod r0 r1).1 s1 ^^^ s0))
    (hend : ∀ r0 r1 s0 s1, r1 ≠ 0 → P r0 r1 s0 s1 → (polydivmod r0 r1).2 = 0 → Q s1 r1) :
    ∀ passes r0 r1 s0 s1, r1 ≠ 0 → bitlen r1 ≤ passes → P r0 r1 s0 s1 →
      Q (invEeaLoop passes r0 r1 s0 s1).1 (invEeaLoop passes r0 r1 s0 s1).2
  | 0, r0, r1, s0, s1, h1, hb, _ => absurd (bitlen_eq_zero.1 (Nat.le_zero.1 hb)) h1
  | passes + 1, r0, r1, s0, s1, h1, hb, hP => by
    rw [invEeaLoop_succ]
    split
    · exact hend r0 r1 s0 s1 h1 hP ‹_›
    · rename_i hd
      have hlt := (toPoly_polydivmod h1 r0).2
      exact invEeaLoop_induction hstep hend passes _ _ _ _ hd (by omega) (hstep r0 r1 s0 s1 h1 hP hd)

/-- The loop ends by its own condition: more passes change nothing (R155). -/
theorem invEeaLoop_more : ∀ passes extra r0 r1 s0 s1, r1 ≠ 0 → bitlen r1 ≤ passes →
    invEeaLoop (passes + extra) r0 r1 s0 s1 = invEeaLoop passes r0 r1 s0 s1
  | 0, _, _, r1, _, _, h1, hb => absurd (bitlen_eq_zero.1 (Nat.le_zero.1 hb)) h1
  | passes + 1, extra, r0, r1, s0, s1, h1, hb => by
    rw [Nat.add_right_comm, invEeaLoop_succ, invEeaLoop_succ]
    split
    · rfl
    · have hlt := (toPoly_polydivmod h1 r0).2
      exact invEeaLoop_more passes extra _ _ _ _ ‹_› (by omega)

/-- Bézout (R153): the gcd that is returned differs from s times a by a multiple of p, and it divides both. -/
theorem invEea_bezout {p : Nat} (hp : p ≠ 0) (a : Nat) :
    toPoly p ∣ toPoly (invEea a p).2 - toPoly (invEea a p).1 * toPoly a ∧
    toPoly (invEea a p).2 ∣ toPoly a ∧ toPoly (invEea a p).2 ∣ toPoly p := by
  refine invEeaLoop_induction
    (P := fun r0 r1 s0 s1 => toPoly p ∣ toPoly r0 - toPoly s0 * toPoly a ∧ toPoly p ∣ toPoly r1 - toPoly s1 * toPoly a ∧
      ∀ g, g ∣ toPoly r0 → g ∣ toPoly r1 → g ∣ toPoly a ∧ g ∣ toPoly p)
    (Q := fun s g => toPoly p ∣ toPoly g - toPoly s * toPoly a ∧ toPoly g ∣ toPoly a ∧ toPoly g ∣ toPoly p)
    ?_ ?_ (bitlen p) a p 1 0 hp le_rfl ⟨by simp, by simp, fun g h1 h2 => ⟨h1, h2⟩⟩
  · rintro r0 r1 s0 s1 h1 ⟨ha, hb, hg⟩ -
    obtain ⟨hq, -⟩ := toPoly_polydivmod h1 r0
    refine ⟨hb, ?_, fun g hg1 hg2 => hg g ?_ hg1⟩
    · have : toPoly (polydivmod r0 r1).2 - toPoly (clmul (polydivmod r0 r1).1 s1 ^^^ s0) * toPoly a =
          (toPoly r0 - toPoly s0 * toPoly a) - toPoly (polydivmod r0 r1).1 * (toPoly r1 - toPoly s1 * toPoly a) := by
        rw [toPoly_xor, toPoly_clmul]
        have h2 := poly_add_self (toPoly (polydivmod r0 r1).1 * toPoly s1 * toPoly a)
        linear_combination hq - h2
      rw [this]
      exact dvd_sub ha (dvd_mul_of_dvd_right hb _)
    · rw [← hq]; exact dvd_add (dvd_mul_of_dvd_right hg1 _) hg2
  · rintro r0 r1 s0 s1 h1 ⟨-, hb, hg⟩ hd
    obtain ⟨hq, -⟩ := toPoly_polydivmod h1 r0
    rw [hd, toPoly_zero, add_zero] at hq
    exact ⟨hb, hg _ ⟨_, by rw [← hq]; ring⟩ dvd_rfl⟩

theorem bitlen_invEea_gcd {p : Nat} (hp : p ≠ 0) (a : Nat) :
    (invEea a p).2 ≠ 0 ∧ bitlen (invEea a p).2 ≤ bitlen p := by
  refine invEeaLoop_induction (P := fun _ r1 _ _ => bitlen r1 ≤ bitlen p) (Q := fun _ g => g ≠ 0 ∧ bitlen g ≤ bitlen p)
    ?_ ?_ (bitlen p) a p 1 0 hp le_rfl le_rfl
  · intro r0 r1 s0 s1 h1 hP _
    have := (toPoly_polydivmod h1 r0).2
    omega
  · intro r0 r1 s0 s1 h1 hP _
    exact ⟨h1, hP⟩

theorem bitlen_clmul {a b : Nat} (ha : a ≠ 0) (hb : b ≠ 0) : bitlen (clmul a b) + 1 = bitlen a + bitlen b := by
  have hne : clmul a b ≠ 0 := by
    rw [Ne, ← toPoly_eq_zero, toPoly_clmul, mul_eq_zero]; simp [ha, hb]
  have h := natDegree_mul (p := toPoly a) (q := toPoly b) (by simpa using ha) (by simpa using hb)
  rw [← toPoly_clmul, natDegree_toPoly hne, natDegree_toPoly ha, natDegree_toPoly hb] at h
  have := bitlen_pos.2 hne; have := bitlen_pos.2 ha; have := bitlen_pos.2 hb
  omega

theorem polydivmod_of_lt {n p : Nat} (h : bitlen n < bitlen p) : polydivmod n p = (0, n) := by
  unfold polydivmod
  cases hb : bitlen n with
  | zero => rfl
  | succ k => unfold polydivmodLoop; rw [if_neg (by omega)]

/-- A quotient that is not trivial has the difference of the degrees as its degree (R150). -/
theorem bitlen_polydivmod_fst {n p : Nat} (hp : p ≠ 0) (h : bitlen p ≤ bitlen n) :
    bitlen (polydivmod n p).1 + bitlen p = bitlen n + 1 := by
  obtain ⟨hq, hlt⟩ := toPoly_polydivmod hp n
  set c := (polydivmod n p).1
  set d := (polydivmod n p).2
  have hn : n = clmul c p ^^^ d := toPoly_injective (by simp [← hq])
  have hc : c ≠ 0 := by
    intro h0
    rw [h0, show clmul 0 p = 0 from toPoly_injective (by simp), Nat.zero_xor] at hn
    rw [hn] at h; omega
  have hcp := bitlen_clmul hc hp
  have hc1 := bitlen_pos.2 hc
  have h1 : bitlen n ≤ bitlen (clmul c p) := by rw [hn]; exact bitlen_xor_le le_rfl (by omega)
  have h2 : bitlen (clmul c p) ≤ bitlen n := by
    have : clmul c p = n ^^^ d := by rw [hn, Nat.xor_assoc, Nat.xor_self, Nat.xor_zero]
    rw [this]; exact bitlen_xor_le le_rfl (by omega)
  omega

/-- The candidate inverse is shorter than the modulus (R155). -/
theorem bitlen_invEea_inverse {p : Nat} (hp : 2 ≤ bitlen p) (a : Nat) : bitlen (invEea a p).1 < bitlen p := by
  have hp0 : p ≠ 0 := by rw [← bitlen_pos]; omega
  refine invEeaLoop_induction
    (P := fun r0 r1 s0 s1 => (r1 = p ∧ s0 = 1 ∧ s1 = 0) ∨
      (bitlen r1 < bitlen r0 ∧ s1 ≠ 0 ∧ bitlen s0 ≤ bitlen s1 ∧ bitlen s1 + bitlen r0 = bitlen p + 1))
    (Q := fun s _ => bitlen s < bitlen p) ?_ ?_ (bitlen p) a p 1 0 hp0 le_rfl (.inl ⟨rfl, rfl, rfl⟩)
  · rintro r0 r1 s0 s1 h1 hP hd
    have hlt := (toPoly_polydivmod h1 r0).2
    right
    rcases hP with ⟨rfl, rfl, rfl⟩ | ⟨hr, hs, hss, hsum⟩
    · have : clmul (polydivmod r0 r1).1 0 ^^^ 1 = 1 := toPoly_injective (by simp)
      rw [this]
      exact ⟨hlt, by decide, by decide, by rw [show bitlen 1 = 1 from by decide]; omega⟩
    · have hc := bitlen_polydivmod_fst h1 hr.le
      set c := (polydivmod r0 r1).1
      have hc0 : c ≠ 0 := by rw [← bitlen_pos]; omega
      have hm := bitlen_clmul hc0 hs
      have hs1 := bitlen_pos.2 hs
      have hle : bitlen (clmul c s1 ^^^ s0) = bitlen (clmul c s1) := by
        apply Nat.le_antisymm (bitlen_xor_le le_rfl (by omega))
        by_contra hlt2
        have h3 : clmul c s1 = (clmul c s1 ^^^ s0) ^^^ s0 := by rw [Nat.xor_assoc, Nat.xor_self, Nat.xor_zero]
        have h4 : bitlen ((clmul c s1 ^^^ s0) ^^^ s0) ≤ bitlen (clmul c s1) - 1 := bitlen_xor_le (by omega) (by omega)
        rw [← h3] at h4
        omega
      refine ⟨hlt, ?_, by omega, by omega⟩
      rw [← bitlen_pos, hle]; omega
  · rintro r0 r1 s0 s1 h1 hP -
    have := bitlen_pos.2 h1
    rcases hP with ⟨rfl, rfl, rfl⟩ | ⟨hr, hs, hss, hsum⟩
    · simp; omega
    · omega

/-- A gcd of 1 makes a and p coprime. -/
theorem isCoprime_of_invEea {a p : Nat} (hp : p ≠ 0) (h : (invEea a p).2 = 1) : IsCoprime (toPoly a) (toPoly p) := by
  obtain ⟨⟨q, hq⟩, -, -⟩ := invEea_bezout hp a
  rw [h, toPoly_one] at hq
  exact ⟨toPoly (invEea a p).1, q, by linear_combination -hq⟩

end Sys2Proof.Gf2
end

