-- ==== Sys2Proof/Laws/Division.lean ====
section
/-! SUPPORT. Division over GF(2) on naturals: the one quotient and remainder (spec/44_division_inverse.md R150), sizes of
products, and that the bounds on the passes of the loops never end them (spec/70_reset_and_hazards.md R204). -/

namespace Sys2Proof.Gf2

open Polynomial

theorem clmulLoop_more (a b : Nat) : ∀ n k i r, bitlen (b >>> i) ≤ n → clmulLoop a b (n + k) i r = clmulLoop a b n i r := by
  intro n k i r h
  apply toPoly_injective
  rw [toPoly_clmulLoop _ _ _ _ _ (by omega), toPoly_clmulLoop _ _ _ _ _ h]

theorem polyremLoop_more {p : Nat} (hp : p ≠ 0) : ∀ n k r, bitlen r ≤ n → polyremLoop p (n + k) r = polyremLoop p n r
  | 0, k, r, h => by
    have : r = 0 := by simpa using h
    subst this
    have := bitlen_pos.2 hp
    cases k with
    | zero => rfl
    | succ k => rw [Nat.zero_add]; unfold polyremLoop; rw [if_neg (by simp; omega)]
  | n + 1, k, r, h => by
    rw [Nat.add_right_comm]
    unfold polyremLoop
    split
    · rename_i hle
      exact polyremLoop_more hp n k _ (by have := bitlen_reduce_lt hp hle; omega)
    · rfl

theorem polydivmodLoop_more {p : Nat} (hp : p ≠ 0) : ∀ n k c d, bitlen d ≤ n →
    polydivmodLoop p (n + k) c d = polydivmodLoop p n c d
  | 0, k, c, d, h => by
    have : d = 0 := by simpa using h
    subst this
    have := bitlen_pos.2 hp
    cases k with
    | zero => rfl
    | succ k => rw [Nat.zero_add]; unfold polydivmodLoop; rw [if_neg (by simp; omega)]
  | n + 1, k, c, d, h => by
    rw [Nat.add_right_comm]
    unfold polydivmodLoop
    split
    · rename_i hle
      exact polydivmodLoop_more hp n k _ _ (by have := bitlen_reduce_lt hp hle; omega)
    · rfl

theorem bitlen_div2 {n k : Nat} (h : bitlen n ≤ k + 1) : bitlen (n / 2) ≤ k := by
  rw [bitlen_le_iff] at *; rw [pow_succ] at h; omega

theorem potSquaringLoop_more (p : Nat) : ∀ n k acc sq e, bitlen e ≤ n →
    potSquaringLoop p (n + k) acc sq e = potSquaringLoop p n acc sq e
  | 0, k, acc, sq, e, h => by
    have : e = 0 := by simpa using h
    subst this
    cases k with
    | zero => rfl
    | succ k => rw [Nat.zero_add]; unfold potSquaringLoop; simp
  | n + 1, k, acc, sq, e, h => by
    rw [Nat.add_right_comm]
    unfold potSquaringLoop
    split
    · rfl
    · exact potSquaringLoop_more p n k _ _ _ (bitlen_div2 h)

/-- The quotient and the remainder are the only ones (R150). -/
theorem div_unique {p q d n : Nat} (hp : p ≠ 0) (h : n = clmul q p ^^^ d) (hd : bitlen d < bitlen p) :
    q = (polydivmod n p).1 ∧ d = (polydivmod n p).2 := by
  have h2 := div_modByMonic_unique (f := toPoly n) (toPoly q) (toPoly d) (monic_toPoly hp)
    ⟨by rw [h]; simp; ring, by rwa [degree_toPoly_lt hp]⟩
  rw [← toPoly_polydivmod_fst hp, ← toPoly_polydivmod_snd hp, toPoly_inj, toPoly_inj] at h2
  exact ⟨h2.1.symm, h2.2.symm⟩

theorem polyrem_eq_snd {p : Nat} (hp : p ≠ 0) (r : Nat) : polyrem r p = (polydivmod r p).2 := by
  rw [← toPoly_inj, toPoly_polyrem hp, toPoly_polydivmod_snd hp]

theorem divmod_eq {p : Nat} (hp : p ≠ 0) (n : Nat) : n = clmul (polydivmod n p).1 p ^^^ (polydivmod n p).2 :=
  toPoly_injective (by simp [(toPoly_polydivmod hp n).1])

theorem clmul_lt {a b : Nat} (ha : a < 2 ^ 32) (hb : b < 2 ^ 32) : clmul a b < 2 ^ 63 := by
  rw [← bitlen_le_iff] at *
  by_cases h1 : a = 0
  · subst h1; rw [show clmul 0 b = 0 from toPoly_injective (by simp)]; simp
  · by_cases h2 : b = 0
    · subst h2; rw [show clmul a 0 = 0 from toPoly_injective (by simp)]; simp
    · have := bitlen_clmul h1 h2; omega

theorem or_eq_xor_of_lt {c k : Nat} (h : c < 2 ^ k) : (1 <<< k) ||| c = (1 <<< k) ^^^ c := by
  apply Nat.eq_of_testBit_eq
  intro i
  rw [Nat.testBit_or, Nat.testBit_xor, Nat.one_shiftLeft, Nat.testBit_two_pow]
  by_cases hi : k = i
  · subst hi; simp [Nat.testBit_lt_two_pow h]
  · simp [hi]

/-- The loop condition of `clmul`, by position (R120). -/
theorem shiftRight_ne_zero_iff (b i : Nat) : b >>> i ≠ 0 ↔ i < bitlen b := by
  rw [lt_bitlen_iff, Nat.shiftRight_eq_div_pow, Ne, Nat.div_eq_zero_iff]
  have : 0 < 2 ^ i := by positivity
  omega

/-- The loop of `clmul` as a fold over the positions (R120). -/
theorem clmulLoop_eq_foldl (a b : Nat) : ∀ n i r, i + n = bitlen b →
    clmulLoop a b n i r =
      (List.range' i n).foldl (fun r i => if b.testBit i then r ^^^ (a <<< i) else r) r
  | 0, i, r, h => rfl
  | n + 1, i, r, h => by
    unfold clmulLoop
    rw [if_neg ((shiftRight_ne_zero_iff b i).2 (by omega)), List.range'_succ, List.foldl_cons]
    exact clmulLoop_eq_foldl a b n (i + 1) _ (by omega)

/-- The passes that R121 counts are enough. -/
theorem polyremLoop_enough {p : Nat} (hp : p ≠ 0) : ∀ k r, bitlen r + 1 ≤ k + bitlen p → ∀ n,
    polyremLoop p (k + n) r = polyremLoop p k r
  | 0, r, h, n => by
    cases n with
    | zero => rfl
    | succ n => rw [Nat.zero_add]; unfold polyremLoop; rw [if_neg (by omega)]
  | k + 1, r, h, n => by
    rw [Nat.add_right_comm]; unfold polyremLoop
    split
    · rename_i hle; exact polyremLoop_enough hp k _ (by have := bitlen_reduce_lt hp hle; omega) n
    · rfl

/-- The passes that R150 counts are enough. -/
theorem polydivmodLoop_enough {p : Nat} (hp : p ≠ 0) : ∀ k c r, bitlen r + 1 ≤ k + bitlen p → ∀ n,
    polydivmodLoop p (k + n) c r = polydivmodLoop p k c r
  | 0, c, r, h, n => by
    cases n with
    | zero => rfl
    | succ n => rw [Nat.zero_add]; unfold polydivmodLoop; rw [if_neg (by omega)]
  | k + 1, c, r, h, n => by
    rw [Nat.add_right_comm]; unfold polydivmodLoop
    split
    · rename_i hle; exact polydivmodLoop_enough hp k _ _ (by have := bitlen_reduce_lt hp hle; omega) n
    · rfl

@[simp] theorem clmul_zero (a : Nat) : clmul a 0 = 0 := toPoly_injective (by simp)

@[simp] theorem zero_clmul (a : Nat) : clmul 0 a = 0 := toPoly_injective (by simp)

@[simp] theorem clmul_one (a : Nat) : clmul a 1 = a := toPoly_injective (by simp)

end Sys2Proof.Gf2
end

