-- ==== Sys2Proof/Laws/Encoding.lean ====
section
/-! SUPPORT. The fields of a packed word, and the word packed from fields (spec/30_encoding.md R81). -/

namespace Sys2Proof

/-- A packed word as the disjunction of its shifted fields (R81). -/
theorem packFields_eq (op imm : Nat) (rd rs1 rs2 : Reg) :
    packFields op rd rs1 rs2 imm =
      BitVec.ofNat 32 ((op <<< 24) ||| (rd.val <<< 20) ||| (rs1.val <<< 16) ||| (rs2.val <<< 12) ||| imm) := by
  apply BitVec.eq_of_getLsbD_eq
  intro i hi
  simp only [packFields, BitVec.getLsbD_or, BitVec.getLsbD_shiftLeft, BitVec.getLsbD_ofNat, Nat.testBit_or, Nat.testBit_shiftLeft,
    hi, decide_true, Bool.true_and]
  have (k : Nat) (m : Nat) (h : i < 32) : (!decide (i < k) && (decide (i - k < 32) && m.testBit (i - k))) =
      (decide (i ≥ k) && m.testBit (i - k)) := by
    have h2 : i - k < 32 := by omega
    by_cases hk : i < k
    · simp [hk]
    · simp [hk, h2]; omega
  simp only [this _ _ hi]

/-- A packed word as a sum of its fields. -/
theorem packFields_toNat {op imm : Nat} (hop : op < 256) (himm : imm < 4096) (rd rs1 rs2 : Reg) :
    (packFields op rd rs1 rs2 imm).toNat = op * 2 ^ 24 + rd.val * 2 ^ 20 + rs1.val * 2 ^ 16 + rs2.val * 2 ^ 12 + imm := by
  have h1 := rd.isLt; have h2 := rs1.isLt; have h3 := rs2.isLt
  have e (a b k n : Nat) (hb : b < 2 ^ k) : a * 2 ^ k ||| b = a * 2 ^ k + b := by
    rw [Nat.mul_comm]; exact (Nat.two_pow_add_eq_or_of_lt hb a).symm
  simp only [packFields, BitVec.toNat_or, BitVec.toNat_shiftLeft, BitVec.toNat_ofNat, Nat.shiftLeft_eq]
  rw [Nat.mod_eq_of_lt (a := op) (by omega), Nat.mod_eq_of_lt (a := rd.val) (by omega),
    Nat.mod_eq_of_lt (a := rs1.val) (by omega), Nat.mod_eq_of_lt (a := rs2.val) (by omega),
    Nat.mod_eq_of_lt (a := imm) (by omega), Nat.mod_eq_of_lt (by omega), Nat.mod_eq_of_lt (by omega),
    Nat.mod_eq_of_lt (by omega), Nat.mod_eq_of_lt (by omega)]
  rw [e op _ 24 0 (by omega)]
  rw [show op * 2 ^ 24 + rd.val * 2 ^ 20 = (op * 16 + rd.val) * 2 ^ 20 by ring, e _ _ 20 0 (by omega),
    show (op * 16 + rd.val) * 2 ^ 20 + rs1.val * 2 ^ 16 = (op * 256 + rd.val * 16 + rs1.val) * 2 ^ 16 by ring,
    e _ _ 16 0 (by omega),
    show (op * 256 + rd.val * 16 + rs1.val) * 2 ^ 16 + rs2.val * 2 ^ 12 =
      (op * 4096 + rd.val * 256 + rs1.val * 16 + rs2.val) * 2 ^ 12 by ring, e _ _ 12 0 (by omega)]

theorem fieldOpcode_toNat (w : Word) : (fieldOpcode w).toNat = w.toNat / 2 ^ 24 := by
  have := w.isLt
  simp only [fieldOpcode, BitVec.extractLsb'_toNat, Nat.shiftRight_eq_div_pow]; omega

theorem fieldRd_val (w : Word) : (fieldRd w).val = w.toNat / 2 ^ 20 % 16 := by
  simp only [fieldRd, BitVec.extractLsb', BitVec.ofNat, Nat.shiftRight_eq_div_pow]; rfl

theorem fieldRs1_val (w : Word) : (fieldRs1 w).val = w.toNat / 2 ^ 16 % 16 := by
  simp only [fieldRs1, BitVec.extractLsb', BitVec.ofNat, Nat.shiftRight_eq_div_pow]; rfl

theorem fieldRs2_val (w : Word) : (fieldRs2 w).val = w.toNat / 2 ^ 12 % 16 := by
  simp only [fieldRs2, BitVec.extractLsb', BitVec.ofNat, Nat.shiftRight_eq_div_pow]; rfl

theorem fieldImm_toNat (w : Word) : (fieldImm w).toNat = w.toNat % 4096 := by
  simp only [fieldImm, BitVec.extractLsb'_toNat, Nat.shiftRight_zero]

section pack
variable {op imm : Nat} (hop : op < 256) (himm : imm < 4096) (rd rs1 rs2 : Reg)
include hop himm

theorem fieldOpcode_pack : (fieldOpcode (packFields op rd rs1 rs2 imm)).toNat = op := by
  have h1 := rd.isLt; have h2 := rs1.isLt; have h3 := rs2.isLt
  rw [fieldOpcode_toNat, packFields_toNat hop himm]; omega

theorem fieldRd_pack : fieldRd (packFields op rd rs1 rs2 imm) = rd := by
  have h1 := rd.isLt; have h2 := rs1.isLt; have h3 := rs2.isLt
  apply Fin.ext; rw [fieldRd_val, packFields_toNat hop himm]; omega

theorem fieldRs1_pack : fieldRs1 (packFields op rd rs1 rs2 imm) = rs1 := by
  have h1 := rd.isLt; have h2 := rs1.isLt; have h3 := rs2.isLt
  apply Fin.ext; rw [fieldRs1_val, packFields_toNat hop himm]; omega

theorem fieldRs2_pack : fieldRs2 (packFields op rd rs1 rs2 imm) = rs2 := by
  have h1 := rd.isLt; have h2 := rs1.isLt; have h3 := rs2.isLt
  apply Fin.ext; rw [fieldRs2_val, packFields_toNat hop himm]; omega

theorem fieldImm_pack : (fieldImm (packFields op rd rs1 rs2 imm)).toNat = imm := by
  rw [fieldImm_toNat, packFields_toNat hop himm]; omega

theorem fieldImm_pack_eq_zero : fieldImm (packFields op rd rs1 rs2 imm) = 0 ↔ imm = 0 := by
  rw [← BitVec.toNat_inj, fieldImm_pack hop himm]; simp

end pack

/-- A word is the pack of its fields. -/
theorem packFields_fields (w : Word) :
    packFields (fieldOpcode w).toNat (fieldRd w) (fieldRs1 w) (fieldRs2 w) (fieldImm w).toNat = w := by
  apply BitVec.eq_of_toNat_eq
  rw [packFields_toNat (fieldOpcode w).isLt (fieldImm w).isLt, fieldOpcode_toNat, fieldRd_val, fieldRs1_val, fieldRs2_val,
    fieldImm_toNat]
  omega

end Sys2Proof
end

