-- ==== Sys2Proof/Laws/Irred.lean ====
section
/-! SUPPORT. Irreducibility over GF(2): the model's test and its factor form (spec/10_state.md R23), Mathlib's `Irreducible`,
and a check that the kernel evaluates in a few passes (no common factor with x^(2^d) - x for d up to half the degree). -/

namespace Sys2Proof.Machine

open Polynomial Sys2Proof.Gf2

theorem isIrreducible_iff {p : Nat} (hp : p ≠ 0) : isIrreducible p = true ↔ NoProperFactor p := by
  have hpos := bitlen_pos.2 hp
  unfold isIrreducible NoProperFactor
  rw [List.all_eq_true]
  have h2 (f : Nat) : 2 ≤ bitlen f ↔ 2 ≤ f := lt_bitlen_iff (k := 1)
  have hf (f : Nat) : bitlen f < bitlen p ↔ f < 2 ^ (bitlen p - 1) := by rw [← bitlen_le_iff]; omega
  constructor
  · intro h f hf2 hfp
    have := h f (List.mem_range.2 ((hf f).1 hfp))
    rw [h2] at hf2
    simp at this
    omega
  · intro h f hfr
    rw [List.mem_range, ← hf] at hfr
    by_cases hf2 : 2 ≤ f
    · have := h f ((h2 f).2 hf2) hfr
      simp [this]
    · simp; left; omega

theorem legalEntry_iff (m v : Nat) :
    legalEntry m v = true ↔ bitlen v = m + 1 ∧ NoProperFactor v ∧ (m = 4 → v = 0x13) := by
  unfold legalEntry
  rw [Bool.and_eq_true, Bool.and_eq_true, beq_iff_eq, and_assoc]
  refine and_congr_right fun hb => ?_
  have hv : v ≠ 0 := by rw [← bitlen_pos]; omega
  rw [isIrreducible_iff hv]
  refine and_congr_right fun _ => ?_
  by_cases h : m = 4 <;> simp [h]

/-- A polynomial without a proper factor is irreducible. -/
theorem irreducible_toPoly {p : Nat} (hb : 2 ≤ bitlen p) (h : NoProperFactor p) : Irreducible (toPoly p) := by
  have hp : p ≠ 0 := by rw [← bitlen_pos]; omega
  have h1 : toPoly p ≠ 1 := by
    rw [← toPoly_one, Ne, toPoly_inj]; rintro rfl; exact absurd hb (by decide)
  rw [(monic_toPoly hp).irreducible_iff_lt_natDegree_lt h1]
  intro q hq hdeg hdvd
  obtain ⟨f, rfl⟩ := toPoly_surjective q
  have hf : f ≠ 0 := by rintro rfl; simp at hq
  rw [natDegree_toPoly hf, natDegree_toPoly hp, Finset.mem_Ioc] at hdeg
  refine h f (by omega) (by omega) ?_
  rwa [polyrem_eq_zero_iff hf]

theorem noProperFactor_of_irreducible {p : Nat} (hp : p ≠ 0) (h : Irreducible (toPoly p)) : NoProperFactor p := by
  intro f hf2 hfp h0
  have hf : f ≠ 0 := by rw [← bitlen_pos]; omega
  rw [polyrem_eq_zero_iff hf] at h0
  rcases h.dvd_iff.1 h0 with hu | ha
  · have := natDegree_eq_zero_of_isUnit hu
    rw [natDegree_toPoly hf] at this; omega
  · have := natDegree_eq_of_degree_eq (degree_eq_degree_of_associated ha.symm)
    rw [natDegree_toPoly hf, natDegree_toPoly hp] at this; omega

/-- In the field with an irreducible modulus, every element is fixed by as many squarings as the degree. -/
theorem dvd_pow_two_pow_sub {g : (ZMod 2)[X]} (hg : Irreducible g) (f : (ZMod 2)[X]) :
    g ∣ f ^ (2 ^ g.natDegree) - f := by
  have : Fact (Irreducible g) := ⟨hg⟩
  have : Module.Finite (ZMod 2) (AdjoinRoot g) := (AdjoinRoot.powerBasis hg.ne_zero).finite
  have : Finite (AdjoinRoot g) := Module.finite_of_finite (ZMod 2)
  have : Fintype (AdjoinRoot g) := Fintype.ofFinite _
  have hcard : Fintype.card (AdjoinRoot g) = 2 ^ g.natDegree := by
    rw [Module.card_eq_pow_finrank (K := ZMod 2), ZMod.card, (AdjoinRoot.powerBasis hg.ne_zero).finrank,
      AdjoinRoot.powerBasis_dim]
  have h := FiniteField.pow_card (AdjoinRoot.mk g f)
  rw [hcard, ← map_pow] at h
  exact AdjoinRoot.mk_eq_mk.1 h

/-- x squared d times modulo p. -/
def squarings (p : Nat) : Nat → Nat
  | 0 => 2
  | d + 1 => mult (squarings p d) (squarings p d) p

/-- No common factor with x^(2^d) - x, for d from 1 to n. -/
def noSmallFactor (p : Nat) : Nat → Bool
  | 0 => true
  | d + 1 => noSmallFactor p d && (invEea (squarings p (d + 1) ^^^ 2) p).2 == 1

theorem noSmallFactor_apply {p n : Nat} (h : noSmallFactor p n = true) {d : Nat} (h1 : 1 ≤ d) (h2 : d ≤ n) :
    (invEea (squarings p d ^^^ 2) p).2 = 1 := by
  induction n with
  | zero => omega
  | succ n ih =>
    rw [noSmallFactor, Bool.and_eq_true, beq_iff_eq] at h
    by_cases hd : d = n + 1
    · rw [hd]; exact h.2
    · exact ih h.1 (by omega)

theorem toPoly_two : toPoly 2 = X := by
  show toPoly (1 <<< 1) = X
  rw [toPoly_shiftLeft]; simp

theorem squarings_dvd {p : Nat} (hp : p ≠ 0) (d : Nat) : toPoly p ∣ toPoly (squarings p d) - X ^ 2 ^ d := by
  induction d with
  | zero => simp [squarings, toPoly_two]
  | succ d ih =>
    rw [squarings, toPoly_mult hp]
    set t := toPoly (squarings p d)
    have h1 : toPoly p ∣ t * t %ₘ toPoly p - t * t := by
      rw [modByMonic_eq_sub_mul_div _ (toPoly p)]
      exact ⟨-(t * t /ₘ toPoly p), by ring⟩
    have h2 : toPoly p ∣ t * t - X ^ 2 ^ (d + 1) := by
      have : t * t - X ^ 2 ^ (d + 1) = (t - X ^ 2 ^ d) * (t + X ^ 2 ^ d) := by rw [pow_succ, pow_mul]; ring
      rw [this]; exact dvd_mul_of_dvd_left ih _
    have := dvd_add h1 h2
    rwa [sub_add_sub_cancel] at this

/-- The kernel's check: a p of degree m is irreducible if it shares no factor with x^(2^d) - x for d up to m / 2. -/
theorem noProperFactor_of_check {p : Nat} (hb : 2 ≤ bitlen p) (h : noSmallFactor p ((bitlen p - 1) / 2) = true) :
    NoProperFactor p := by
  have hp : p ≠ 0 := by rw [← bitlen_pos]; omega
  have hne1 : toPoly p ≠ 1 := by
    rw [← toPoly_one, Ne, toPoly_inj]; rintro rfl; exact absurd hb (by decide)
  apply noProperFactor_of_irreducible hp
  rw [(monic_toPoly hp).irreducible_iff_lt_natDegree_lt hne1]
  intro q hq hdeg hdvd
  rw [Finset.mem_Ioc, natDegree_toPoly hp] at hdeg
  have hnu : ¬ IsUnit q := fun hu => by have := natDegree_eq_zero_of_isUnit hu; omega
  obtain ⟨g, hg, hgq⟩ := WfDvdMonoid.exists_irreducible_factor hnu hq.ne_zero
  have hle := natDegree_le_of_dvd hgq hq.ne_zero
  have hco := isCoprime_of_invEea hp (noSmallFactor_apply h (Nat.pos_of_ne_zero hg.natDegree_pos.ne') (by omega))
  have h1 : g ∣ toPoly p := hgq.trans hdvd
  have h2 : g ∣ toPoly (squarings p g.natDegree ^^^ 2) := by
    rw [toPoly_xor, toPoly_two, ← poly_sub]
    have := dvd_add (h1.trans (squarings_dvd hp g.natDegree)) (dvd_pow_two_pow_sub hg X)
    rwa [sub_add_sub_cancel] at this
  exact hg.not_isUnit (hco.isUnit_of_dvd' h2 h1)

/-! ## The table -/

theorem exampleEntry_check : ((List.range 24).all fun k =>
    bitlen (exampleEntry (k + 1)) == k + 2 && noSmallFactor (exampleEntry (k + 1)) ((k + 1) / 2)) = true := by
  decide +kernel

theorem exampleEntry_ok {m : Nat} (h1 : 1 ≤ m) (h2 : m ≤ 24) :
    bitlen (exampleEntry m) = m + 1 ∧ NoProperFactor (exampleEntry m) := by
  have h := List.all_eq_true.1 exampleEntry_check (m - 1) (List.mem_range.2 (by omega))
  rw [Nat.sub_add_cancel h1, Bool.and_eq_true, beq_iff_eq] at h
  have hb : bitlen (exampleEntry m) = m + 1 := by omega
  refine ⟨hb, noProperFactor_of_check (by omega) ?_⟩
  rw [hb]; simpa using h.2

/-- Whatever the free function holds, the table built from it meets R23. -/
theorem irredOf_ok (free : Nat → Nat) {m : Nat} (h1 : 1 ≤ m) (h2 : m ≤ 24) :
    bitlen (irredOf free m) = m + 1 ∧ NoProperFactor (irredOf free m) := by
  unfold irredOf
  split
  · exact exampleEntry_ok h1 h2
  · exact exampleEntry_ok h1 h2
  · split
    · rename_i h; have := (legalEntry_iff _ _).1 h; exact ⟨this.1, this.2.1⟩
    · exact exampleEntry_ok h1 h2

theorem irred_lt {m : Nat} (h1 : 1 ≤ m) (h2 : m ≤ 24) : irred m < 2 ^ 25 := by
  rw [← bitlen_le_iff, irred, (irredOf_ok _ h1 h2).1]; omega

theorem irred_ne {m : Nat} (h1 : 1 ≤ m) (h2 : m ≤ 24) : irred m ≠ 0 := by
  rw [← bitlen_pos, irred, (irredOf_ok _ h1 h2).1]; omega

end Sys2Proof.Machine
end

