-- ==== Sys2Proof/Laws/State.lean ====
section
/-! SUPPORT. What each shared update of the state does to each field, and what a register reads after a write. -/

namespace Sys2Proof.Machine

/-! ### writeReg -/

@[simp] theorem writeReg_x (r : Reg) (v : Word) (s : State) : (writeReg r v s).x = s.x.set r v := rfl
@[simp] theorem writeReg_fv (r : Reg) (v : Word) (s : State) : (writeReg r v s).fv = s.fv := rfl
@[simp] theorem writeReg_degree (r : Reg) (v : Word) (s : State) : (writeReg r v s).degree = s.degree := rfl
@[simp] theorem writeReg_order (r : Reg) (v : Word) (s : State) : (writeReg r v s).order = s.order := rfl
@[simp] theorem writeReg_modulus (r : Reg) (v : Word) (s : State) : (writeReg r v s).modulus = s.modulus := rfl
@[simp] theorem writeReg_err (r : Reg) (v : Word) (s : State) : (writeReg r v s).err = s.err := rfl
@[simp] theorem writeReg_di (r : Reg) (v : Word) (s : State) : (writeReg r v s).di = s.di := rfl
@[simp] theorem writeReg_gcd (r : Reg) (v : Word) (s : State) : (writeReg r v s).gcd = s.gcd := rfl
@[simp] theorem writeReg_pending (r : Reg) (v : Word) (s : State) : (writeReg r v s).pending = s.pending := rfl
@[simp] theorem writeReg_responses (r : Reg) (v : Word) (s : State) : (writeReg r v s).responses = s.responses := rfl

/-! ### raise -/

@[simp] theorem raise_x (e : ErrCode) (s : State) : (raise e s).x = s.x := rfl
@[simp] theorem raise_fv (e : ErrCode) (s : State) : (raise e s).fv = s.fv := rfl
@[simp] theorem raise_degree (e : ErrCode) (s : State) : (raise e s).degree = s.degree := rfl
@[simp] theorem raise_order (e : ErrCode) (s : State) : (raise e s).order = s.order := rfl
@[simp] theorem raise_modulus (e : ErrCode) (s : State) : (raise e s).modulus = s.modulus := rfl
@[simp] theorem raise_err (e : ErrCode) (s : State) : (raise e s).err = e := rfl
@[simp] theorem raise_di (e : ErrCode) (s : State) : (raise e s).di = false := rfl
@[simp] theorem raise_gcd (e : ErrCode) (s : State) : (raise e s).gcd = s.gcd := rfl
@[simp] theorem raise_pending (e : ErrCode) (s : State) : (raise e s).pending = s.pending := rfl
@[simp] theorem raise_responses (e : ErrCode) (s : State) : (raise e s).responses = s.responses := rfl

/-! ### succeed -/

@[simp] theorem succeed_x (b : Bool) (s : State) : (succeed b s).x = s.x := rfl
@[simp] theorem succeed_fv (b : Bool) (s : State) : (succeed b s).fv = s.fv := rfl
@[simp] theorem succeed_degree (b : Bool) (s : State) : (succeed b s).degree = s.degree := rfl
@[simp] theorem succeed_order (b : Bool) (s : State) : (succeed b s).order = s.order := rfl
@[simp] theorem succeed_modulus (b : Bool) (s : State) : (succeed b s).modulus = s.modulus := rfl
@[simp] theorem succeed_err (b : Bool) (s : State) : (succeed b s).err = .ok := rfl
@[simp] theorem succeed_di (b : Bool) (s : State) : (succeed b s).di = b := rfl
@[simp] theorem succeed_gcd (b : Bool) (s : State) : (succeed b s).gcd = s.gcd := rfl
@[simp] theorem succeed_pending (b : Bool) (s : State) : (succeed b s).pending = s.pending := rfl
@[simp] theorem succeed_responses (b : Bool) (s : State) : (succeed b s).responses = s.responses := rfl

/-! ### complete -/

@[simp] theorem complete_x (r : Reg) (v : Nat) (s : State) : (complete r v s).x = s.x.set r (BitVec.ofNat 32 v) := rfl
@[simp] theorem complete_fv (r : Reg) (v : Nat) (s : State) : (complete r v s).fv = s.fv := rfl
@[simp] theorem complete_degree (r : Reg) (v : Nat) (s : State) : (complete r v s).degree = s.degree := rfl
@[simp] theorem complete_order (r : Reg) (v : Nat) (s : State) : (complete r v s).order = s.order := rfl
@[simp] theorem complete_modulus (r : Reg) (v : Nat) (s : State) : (complete r v s).modulus = s.modulus := rfl
@[simp] theorem complete_err (r : Reg) (v : Nat) (s : State) : (complete r v s).err = .ok := rfl
@[simp] theorem complete_di (r : Reg) (v : Nat) (s : State) : (complete r v s).di = false := rfl
@[simp] theorem complete_gcd (r : Reg) (v : Nat) (s : State) : (complete r v s).gcd = s.gcd := rfl
@[simp] theorem complete_pending (r : Reg) (v : Nat) (s : State) : (complete r v s).pending = s.pending := rfl
@[simp] theorem complete_responses (r : Reg) (v : Nat) (s : State) : (complete r v s).responses = s.responses := rfl

/-! ### buildField -/

@[simp] theorem buildField_x (m : Nat) (s : State) : (buildField m s).x = s.x := rfl
@[simp] theorem buildField_fv (m : Nat) (s : State) : (buildField m s).fv = true := rfl
@[simp] theorem buildField_degree (m : Nat) (s : State) : (buildField m s).degree = BitVec.ofNat 5 m := rfl
@[simp] theorem buildField_order (m : Nat) (s : State) : (buildField m s).order = BitVec.ofNat 25 (2 ^ m) := rfl
@[simp] theorem buildField_modulus (m : Nat) (s : State) : (buildField m s).modulus = BitVec.ofNat 25 (irred m) := rfl
@[simp] theorem buildField_err (m : Nat) (s : State) : (buildField m s).err = s.err := rfl
@[simp] theorem buildField_di (m : Nat) (s : State) : (buildField m s).di = s.di := rfl
@[simp] theorem buildField_gcd (m : Nat) (s : State) : (buildField m s).gcd = s.gcd := rfl
@[simp] theorem buildField_pending (m : Nat) (s : State) : (buildField m s).pending = s.pending := rfl
@[simp] theorem buildField_responses (m : Nat) (s : State) : (buildField m s).responses = s.responses := rfl

/-! ### writeGcd -/

@[simp] theorem writeGcd_x (g : Nat) (s : State) : (writeGcd g s).x = s.x := rfl
@[simp] theorem writeGcd_fv (g : Nat) (s : State) : (writeGcd g s).fv = s.fv := rfl
@[simp] theorem writeGcd_degree (g : Nat) (s : State) : (writeGcd g s).degree = s.degree := rfl
@[simp] theorem writeGcd_order (g : Nat) (s : State) : (writeGcd g s).order = s.order := rfl
@[simp] theorem writeGcd_modulus (g : Nat) (s : State) : (writeGcd g s).modulus = s.modulus := rfl
@[simp] theorem writeGcd_err (g : Nat) (s : State) : (writeGcd g s).err = s.err := rfl
@[simp] theorem writeGcd_di (g : Nat) (s : State) : (writeGcd g s).di = s.di := rfl
@[simp] theorem writeGcd_gcd (g : Nat) (s : State) : (writeGcd g s).gcd = BitVec.ofNat 25 g := rfl
@[simp] theorem writeGcd_pending (g : Nat) (s : State) : (writeGcd g s).pending = s.pending := rfl
@[simp] theorem writeGcd_responses (g : Nat) (s : State) : (writeGcd g s).responses = s.responses := rfl

/-! ### completeInv -/

@[simp] theorem completeInv_x (r : Reg) (vg : Nat × Nat) (s : State) : (completeInv r vg s).x = s.x.set r (BitVec.ofNat 32 vg.1) := rfl
@[simp] theorem completeInv_fv (r : Reg) (vg : Nat × Nat) (s : State) : (completeInv r vg s).fv = s.fv := rfl
@[simp] theorem completeInv_degree (r : Reg) (vg : Nat × Nat) (s : State) : (completeInv r vg s).degree = s.degree := rfl
@[simp] theorem completeInv_order (r : Reg) (vg : Nat × Nat) (s : State) : (completeInv r vg s).order = s.order := rfl
@[simp] theorem completeInv_modulus (r : Reg) (vg : Nat × Nat) (s : State) : (completeInv r vg s).modulus = s.modulus := rfl
@[simp] theorem completeInv_err (r : Reg) (vg : Nat × Nat) (s : State) : (completeInv r vg s).err = .ok := rfl
@[simp] theorem completeInv_di (r : Reg) (vg : Nat × Nat) (s : State) : (completeInv r vg s).di = degenerateFlag vg.2 := rfl
@[simp] theorem completeInv_gcd (r : Reg) (vg : Nat × Nat) (s : State) : (completeInv r vg s).gcd = BitVec.ofNat 25 vg.2 := rfl
@[simp] theorem completeInv_pending (r : Reg) (vg : Nat × Nat) (s : State) : (completeInv r vg s).pending = s.pending := rfl
@[simp] theorem completeInv_responses (r : Reg) (vg : Nat × Nat) (s : State) : (completeInv r vg s).responses = s.responses := rfl

/-! ### respond -/

@[simp] theorem respond_x (a : Response) (s : State) : (respond a s).x = s.x := rfl
@[simp] theorem respond_fv (a : Response) (s : State) : (respond a s).fv = s.fv := rfl
@[simp] theorem respond_degree (a : Response) (s : State) : (respond a s).degree = s.degree := rfl
@[simp] theorem respond_order (a : Response) (s : State) : (respond a s).order = s.order := rfl
@[simp] theorem respond_modulus (a : Response) (s : State) : (respond a s).modulus = s.modulus := rfl
@[simp] theorem respond_err (a : Response) (s : State) : (respond a s).err = s.err := rfl
@[simp] theorem respond_di (a : Response) (s : State) : (respond a s).di = s.di := rfl
@[simp] theorem respond_gcd (a : Response) (s : State) : (respond a s).gcd = s.gcd := rfl
@[simp] theorem respond_pending (a : Response) (s : State) : (respond a s).pending = s.pending := rfl
@[simp] theorem respond_responses (a : Response) (s : State) : (respond a s).responses = s.responses ++ [a] := rfl

/-! ### resetBlock -/

@[simp] theorem resetBlock_x (s : State) : (resetBlock s).x = Vector.replicate 16 0 := rfl
@[simp] theorem resetBlock_fv (s : State) : (resetBlock s).fv = false := rfl
@[simp] theorem resetBlock_degree (s : State) : (resetBlock s).degree = 0 := rfl
@[simp] theorem resetBlock_order (s : State) : (resetBlock s).order = 0 := rfl
@[simp] theorem resetBlock_modulus (s : State) : (resetBlock s).modulus = 0 := rfl
@[simp] theorem resetBlock_err (s : State) : (resetBlock s).err = .ok := rfl
@[simp] theorem resetBlock_di (s : State) : (resetBlock s).di = false := rfl
@[simp] theorem resetBlock_gcd (s : State) : (resetBlock s).gcd = 0 := rfl
@[simp] theorem resetBlock_pending (s : State) : (resetBlock s).pending = s.pending := rfl
@[simp] theorem resetBlock_responses (s : State) : (resetBlock s).responses = s.responses := rfl

/-! ### withCommandFirst -/

@[simp] theorem withCommandFirst_x (w : Nat) (s : State) : (withCommandFirst w s).x = s.x := rfl
@[simp] theorem withCommandFirst_fv (w : Nat) (s : State) : (withCommandFirst w s).fv = s.fv := rfl
@[simp] theorem withCommandFirst_degree (w : Nat) (s : State) : (withCommandFirst w s).degree = s.degree := rfl
@[simp] theorem withCommandFirst_order (w : Nat) (s : State) : (withCommandFirst w s).order = s.order := rfl
@[simp] theorem withCommandFirst_modulus (w : Nat) (s : State) : (withCommandFirst w s).modulus = s.modulus := rfl
@[simp] theorem withCommandFirst_err (w : Nat) (s : State) : (withCommandFirst w s).err = s.err := rfl
@[simp] theorem withCommandFirst_di (w : Nat) (s : State) : (withCommandFirst w s).di = s.di := rfl
@[simp] theorem withCommandFirst_gcd (w : Nat) (s : State) : (withCommandFirst w s).gcd = s.gcd := rfl
@[simp] theorem withCommandFirst_pending (w : Nat) (s : State) : (withCommandFirst w s).pending = deliver w :: s.pending := rfl
@[simp] theorem withCommandFirst_responses (w : Nat) (s : State) : (withCommandFirst w s).responses = s.responses := rfl

/-! ### The registers -/

@[simp] theorem readReg_writeReg_same (r : Reg) (v : Word) (s : State) : readReg (writeReg r v s) r = v := by
  simp [readReg]

theorem readReg_writeReg_other {r q : Reg} (h : q ≠ r) (v : Word) (s : State) :
    readReg (writeReg r v s) q = readReg s q := by
  have h' : r.val ≠ q.val := fun e => h (Fin.ext e.symm)
  simp [readReg, Vector.getElem_set_ne, h']

@[simp] theorem readReg_raise (e : ErrCode) (s : State) (r : Reg) : readReg (raise e s) r = readReg s r := rfl
@[simp] theorem readReg_succeed (b : Bool) (s : State) (r : Reg) : readReg (succeed b s) r = readReg s r := rfl
@[simp] theorem readReg_writeGcd (g : Nat) (s : State) (r : Reg) : readReg (writeGcd g s) r = readReg s r := rfl
@[simp] theorem readReg_buildField (m : Nat) (s : State) (r : Reg) : readReg (buildField m s) r = readReg s r := rfl
@[simp] theorem readReg_respond (a : Response) (s : State) (r : Reg) : readReg (respond a s) r = readReg s r := rfl

/-- Writing the value a register already holds changes nothing. -/
theorem writeReg_readReg (r : Reg) (s : State) : writeReg r (readReg s r) s = s := by
  cases s; simp [writeReg, readReg]

theorem writeReg_writeReg (r : Reg) (v w : Word) (s : State) : writeReg r w (writeReg r v s) = writeReg r w s := by
  simp [writeReg]

end Sys2Proof.Machine
end

