-- ==== Sys2Proof/Laws/Ops.lean ====
section
/-! SUPPORT. What each shared operation can answer, and what a command and a step can do, each said once. -/

namespace Sys2Proof.Machine

open Sys2Proof.Gf2

theorem withField_eq (k : State → Result) (s : State) :
    withField k s = if s.fv = true then k s else .next (raise .noField s) := rfl

theorem withField_of_field {k : State → Result} {s : State} (h : s.fv = true) : withField k s = k s := by
  simp [withField, h]

theorem withField_of_none {k : State → Result} {s : State} (h : s.fv = false) :
    withField k s = .next (raise .noField s) := by
  simp [withField, h]

theorem withDivisor_zero {rs2 : Reg} {k : State → Result} {s : State} (h : readReg s rs2 = 0) :
    withDivisor rs2 k s = .next (raise .divideByZero s) := by
  simp [withDivisor, natOperand, h]

theorem withDivisor_nonzero {rs2 : Reg} {k : State → Result} {s : State} (h : readReg s rs2 ≠ 0) :
    withDivisor rs2 k s = k s := by
  have : natOperand s rs2 ≠ 0 := fun e => h (BitVec.eq_of_toNat_eq (by simpa [natOperand] using e))
  simp [withDivisor, this]

/-- The exponent is negative exactly when bit 31 is set (R141). -/
theorem exponentOperand_neg_iff (s : State) (r : Reg) : exponentOperand s r < 0 ↔ (readReg s r).getLsbD 31 = true := by
  have h : (readReg s r).msb = (readReg s r).getLsbD 31 := by simp [BitVec.msb_eq_getLsbD_last]
  rw [exponentOperand, ← h, BitVec.toInt_neg_iff, BitVec.msb_eq_decide]
  simp
  omega

/-- An exponent that is not negative is the natural the register holds. -/
theorem exponentOperand_toNat {s : State} {r : Reg} (h : (readReg s r).getLsbD 31 = false) :
    (exponentOperand s r).toNat = (readReg s r).toNat := by
  have hm : (readReg s r).msb = false := by simpa [BitVec.msb_eq_getLsbD_last] using h
  rw [exponentOperand, BitVec.toInt_eq_toNat_of_msb hm, Int.toNat_natCast]

/-- What a command that answers a next state did: it raised an error, or wrote one register, or wrote a register and `GCD`,
or built a field. -/
inductive Effect (i : Instr) (s : State) : State → Prop
  | raised (e : ErrCode) (he : e ≠ .ok) : Effect i s (raise e s)
  | wrote (rd : Reg) (v : Nat) (hd : destination i = some rd) : Effect i s (complete rd v s)
  | inverted (rd rs1 : Reg) (hi : i = .inv rd rs1) (hf : s.fv = true) :
      Effect i s (completeInv rd (invEea (natOperand s rs1) (modulusOperand s)) s)
  | built (m : Nat) (hi : i = .setdeg m) (h1 : 1 ≤ m) (h2 : m ≤ 24) : Effect i s (succeed false (buildField m s))

theorem withField_effect {i : Instr} {k : State → Result} {s : State}
    (h : s.fv = true → ∃ t, k s = .next t ∧ Effect i s t) : ∃ t, withField k s = .next t ∧ Effect i s t := by
  cases hf : s.fv with
  | true => rw [withField_of_field hf]; exact h hf
  | false => exact ⟨_, withField_of_none hf, .raised _ (by decide)⟩

theorem withDivisor_effect {i : Instr} {rs2 : Reg} {k : State → Result} {s : State}
    (h : ∃ t, k s = .next t ∧ Effect i s t) : ∃ t, withDivisor rs2 k s = .next t ∧ Effect i s t := by
  unfold withDivisor
  split
  · exact ⟨_, rfl, .raised _ (by decide)⟩
  · exact h

/-- Every command answers a next state, and this is all it can do. -/
theorem exec_effect (i : Instr) (s : State) : ∃ t, exec i s = .next t ∧ Effect i s t := by
  cases i with
  | setdeg imm =>
    by_cases h : imm < 1 ∨ Config.maxDeg < imm
    · exact ⟨_, by simp only [exec, execSetdeg, if_pos h], .raised .invalidDegree (by decide)⟩
    · refine ⟨_, by simp only [exec, execSetdeg, if_neg h], .built imm rfl ?_ ?_⟩ <;> simp at h <;> omega
  | add rd rs1 rs2 => simp only [exec, execAdd]; exact withField_effect fun _ => ⟨_, rfl, .wrote rd _ rfl⟩
  | mul rd rs1 rs2 => simp only [exec, execMul]; exact withField_effect fun _ => ⟨_, rfl, .wrote rd _ rfl⟩
  | pow rd rs1 rs2 =>
    simp only [exec, execPow]
    refine withField_effect fun _ => ?_
    by_cases h : exponentOperand s rs2 < 0
    · exact ⟨_, if_pos h, .raised .negativeExponent (by decide)⟩
    · exact ⟨_, if_neg h, .wrote rd _ rfl⟩
  | inv rd rs1 => simp only [exec, execInv]; exact withField_effect fun hf => ⟨_, rfl, .inverted rd rs1 rfl hf⟩
  | bitlen rd rs1 => exact ⟨_, rfl, .wrote rd _ rfl⟩
  | clmul rd rs1 rs2 => exact ⟨_, rfl, .wrote rd _ rfl⟩
  | clmulh rd rs1 rs2 => exact ⟨_, rfl, .wrote rd _ rfl⟩
  | pred rd rs1 rs2 => simp only [exec, execPred]; exact withField_effect fun _ => ⟨_, rfl, .wrote rd _ rfl⟩
  | pdiv rd rs1 rs2 => simp only [exec, execPdiv]; exact withDivisor_effect ⟨_, rfl, .wrote rd _ rfl⟩
  | prem rd rs1 rs2 => simp only [exec, execPrem]; exact withDivisor_effect ⟨_, rfl, .wrote rd _ rfl⟩

/-- The inversion lemma of `exec`. -/
theorem effect_of_exec {i : Instr} {s t : State} (h : exec i s = .next t) : Effect i s t := by
  obtain ⟨u, hu, he⟩ := exec_effect i s
  rw [hu] at h
  cases h
  exact he

/-- A word written to `CMD` runs its command, or raises `ILLEGAL_COMMAND` (R170 step 1). -/
theorem runCommand_cases {w : Word} {s t : State} (h : runCommand w s = .next t) :
    (∃ i, decode w = .cmd i ∧ exec i s = .next t) ∨ (∃ why, decode w = .illegal why ∧ t = raise .illegalCommand s) := by
  unfold runCommand at h
  split at h
  · exact .inl ⟨_, ‹_›, h⟩
  · cases h; exact .inr ⟨_, ‹_›, rfl⟩

theorem runCommand_next (w : Word) (s : State) : ∃ t, runCommand w s = .next t := by
  unfold runCommand
  split
  · obtain ⟨t, ht, -⟩ := exec_effect _ s
    exact ⟨t, ht⟩
  · exact ⟨_, rfl⟩

/-- What serving an action can do to a state: answer a read or refuse a transaction with no change, replace a register,
run a command word, or reset. -/
inductive Served (a : HostAction) (s : State) : State → Prop
  | answered (r : Response) (hr : r ≠ .done) (ha : a ≠ .reset) : Served a s (respond r s)
  | wroteReg (off : Fin 256) (n v : Nat) (r : Reg) (ha : a = .memWrite off n v) (hn : n = 4)
      (hw : windowReg off = some (.x r)) :
      Served a s (respond .done (writeReg r (BitVec.ofNat 32 v) s))
  | ran (off : Fin 256) (n v : Nat) (t : State) (ha : a = .memWrite off n v) (hn : n = 4)
      (hw : windowReg off = some .cmd) (ht : runCommand (BitVec.ofNat 32 v) s = .next t) : Served a s (respond .done t)
  | wasReset (ha : a = .reset) : Served a s (resetBlock s)

theorem busRead_ne_done (off n : Nat) (s : State) : busRead off n s ≠ .done := by
  unfold busRead
  split
  · split <;> simp
  · simp

theorem serve_served (a : HostAction) (s : State) : ∃ t, serve a s = .next t ∧ Served a s t := by
  cases a with
  | memRead off n => exact ⟨_, rfl, .answered _ (busRead_ne_done off n s) (by simp)⟩
  | reset => exact ⟨_, rfl, .wasReset rfl⟩
  | memWrite off n v =>
    simp only [serve, busWrite]
    split
    · rename_i hn
      split
      · exact ⟨_, rfl, .wroteReg off n v _ rfl hn ‹_›⟩
      · rename_i hw
        obtain ⟨t, ht⟩ := runCommand_next (BitVec.ofNat 32 v) s
        exact ⟨_, by rw [ht]; rfl, .ran off n v t rfl hn hw ht⟩
      all_goals exact ⟨_, rfl, .answered _ (by simp) (by simp)⟩
    · exact ⟨_, rfl, .answered _ (by simp) (by simp)⟩

theorem step_nil {s : State} (h : s.pending = []) : step s = .next s := by
  simp [step, serveNext, h]

theorem step_cons {s : State} {a : HostAction} {rest : List HostAction} (h : s.pending = a :: rest) :
    step s = serve a { s with pending := rest } := by
  simp [step, serveNext, h]

/-- The inversion lemma of `step`: the block is idle, or the first action of the list was served. -/
theorem step_cases {s t : State} (h : step s = .next t) :
    (s.pending = [] ∧ t = s) ∨ ∃ a rest, s.pending = a :: rest ∧ Served a { s with pending := rest } t := by
  cases hp : s.pending with
  | nil => rw [step_nil hp] at h; cases h; exact .inl ⟨rfl, rfl⟩
  | cons a rest =>
    rw [step_cons hp] at h
    obtain ⟨u, hu, hs⟩ := serve_served a { s with pending := rest }
    rw [hu] at h; cases h
    exact .inr ⟨a, rest, rfl, hs⟩

/-- A command leaves the host's list and the responses alone. -/
theorem exec_host {i : Instr} {s t : State} (h : exec i s = .next t) :
    t.pending = s.pending ∧ t.responses = s.responses := by
  cases effect_of_exec h <;> exact ⟨rfl, rfl⟩

end Sys2Proof.Machine
end

