-- ==== Sys2Proof/Laws/Field.lean ====
section
/-! SUPPORT. The field record as the naturals the commands use (spec/10_state.md R22), the operands, and what `complete` leaves
in the registers. -/

namespace Sys2Proof.Machine

open Sys2Proof.Gf2

theorem ofNat_toNat_lt {v : Nat} (h : v < 2 ^ 32) : (BitVec.ofNat 32 v).toNat = v := by
  rw [BitVec.toNat_ofNat, Nat.mod_eq_of_lt h]

theorem toNat_eq_zero {w : Word} : w.toNat = 0 ↔ w = 0 := by rw [← BitVec.toNat_inj]; rfl

theorem wide_eq (s : State) (a b : Reg) : wideOperand s a b = (readReg s a).toNat * 2 ^ 32 + (readReg s b).toNat := by
  unfold wideOperand natOperand
  rw [Nat.shiftLeft_eq, Nat.mul_comm, Nat.two_pow_add_eq_or_of_lt (BitVec.isLt _)]

theorem field_facts {s : State} (h : s.fv = true) (hr : FieldRecordOk s) :
    s.modulus.toNat ≠ 0 ∧ bitlen s.modulus.toNat = s.degree.toNat + 1 ∧ s.order.toNat = 2 ^ s.degree.toNat ∧
    1 ≤ s.degree.toNat ∧ s.degree.toNat ≤ 24 ∧
    s.modulus.toNat = irred s.degree.toNat ∧
    ∀ x, polyrem x s.modulus.toNat < s.order.toNat ∧ polyrem x s.modulus.toNat < 2 ^ 32 := by
  obtain ⟨h1, h2, h3, h4, h5⟩ := hr.2 h
  have hne : s.modulus.toNat ≠ 0 := by rw [← bitlen_pos]; omega
  refine ⟨hne, h5, h3, h1, h2, h4, fun x => ?_⟩
  have := bitlen_polyrem_lt hne x
  rw [h3, ← bitlen_le_iff, ← bitlen_le_iff]; omega

theorem modulus_of_degree_four {s : State} (hr : FieldRecordOk s) (h : s.fv = true) (h4 : s.degree = 4) :
    s.modulus.toNat = 0x13 := by
  have := (field_facts h hr).2.2.2.2.2.1
  rw [this, h4]; rfl

/-! The commands where no check of theirs fails, over `readReg`. -/

theorem exec_add {s : State} (h : s.fv = true) (rd a b : Reg) :
    exec (.add rd a b) s = .next (succeed false (writeReg rd (readReg s a ^^^ readReg s b) s)) := by
  have e : BitVec.ofNat 32 (natOperand s a ^^^ natOperand s b) = readReg s a ^^^ readReg s b := by
    apply BitVec.eq_of_toNat_eq
    show (BitVec.ofNat 32 ((readReg s a).toNat ^^^ (readReg s b).toNat)).toNat = _
    rw [ofNat_toNat_lt (Nat.xor_lt_two_pow (BitVec.isLt _) (BitVec.isLt _))]; rfl
  simp only [exec, execAdd, withField_of_field h, complete, e]

theorem exec_mul {s : State} (h : s.fv = true) (rd a b : Reg) :
    exec (.mul rd a b) s =
      .next (complete rd (mult (readReg s a).toNat (readReg s b).toNat s.modulus.toNat) s) := by
  simp only [exec, execMul, withField_of_field h]; rfl

theorem exec_pred {s : State} (h : s.fv = true) (rd a b : Reg) :
    exec (.pred rd a b) s =
      .next (complete rd (polyrem ((readReg s a).toNat * 2 ^ 32 + (readReg s b).toNat) s.modulus.toNat) s) := by
  simp only [exec, execPred, withField_of_field h, wide_eq]; rfl

theorem exec_pow {s : State} (h : s.fv = true) (rd a b : Reg) (hb : (readReg s b).getLsbD 31 = false) :
    exec (.pow rd a b) s =
      .next (complete rd (potSquaring (readReg s a).toNat (readReg s b).toNat s.modulus.toNat) s) := by
  have hn : ¬ exponentOperand s b < 0 := by rw [exponentOperand_neg_iff, hb]; decide
  simp only [exec, execPow, withField_of_field h, if_neg hn, exponentOperand_toNat hb]; rfl

theorem exec_inv {s : State} (h : s.fv = true) (rd a : Reg) :
    exec (.inv rd a) s = .next (completeInv rd (invEea (readReg s a).toNat s.modulus.toNat) s) := by
  simp only [exec, execInv, withField_of_field h]; rfl

theorem exec_pdiv {s : State} {b : Reg} (h : readReg s b ≠ 0) (rd a : Reg) :
    exec (.pdiv rd a b) s = .next (complete rd (polydivmod (readReg s a).toNat (readReg s b).toNat).1 s) := by
  simp only [exec, execPdiv, withDivisor_nonzero h]; rfl

theorem exec_prem {s : State} {b : Reg} (h : readReg s b ≠ 0) (rd a : Reg) :
    exec (.prem rd a b) s = .next (complete rd (polydivmod (readReg s a).toNat (readReg s b).toNat).2 s) := by
  simp only [exec, execPrem, withDivisor_nonzero h]; rfl

@[simp] theorem readReg_complete_same (r : Reg) (v : Nat) (s : State) : readReg (complete r v s) r = BitVec.ofNat 32 v := by
  simp [complete]

theorem readReg_complete_other {r q : Reg} (h : q ≠ r) (v : Nat) (s : State) : readReg (complete r v s) q = readReg s q := by
  simp [complete, readReg_writeReg_other h]

theorem halves {n : Nat} (h : n < 2 ^ 63) : n / 2 ^ 32 % 2 ^ 32 * 2 ^ 32 + n % 2 ^ 32 = n := by omega

end Sys2Proof.Machine
end

