-- ==== Sys2Proof/Laws/Invariant.lean ====
section
/-! SUPPORT. A command keeps the invariant of the machine (spec/10_state.md R22, R26). -/

namespace Sys2Proof.Machine

open Sys2Proof.Gf2

theorem invEea_gcd_lt (s : State) (a : Nat) : (invEea a s.modulus.toNat).2 < 2 ^ 25 := by
  by_cases h : s.modulus.toNat = 0
  · rw [h]; show (0 : Nat) < _; decide
  · have h1 : bitlen s.modulus.toNat ≤ 25 := bitlen_le_iff.2 s.modulus.isLt
    rw [← bitlen_le_iff]; have := (bitlen_invEea_gcd h a).2; omega

/-- The field that SETDEG builds (R100) meets R22. -/
theorem buildField_ok {m : Nat} (h1 : 1 ≤ m) (h2 : m ≤ 24) (s : State) :
    (buildField m s).degree.toNat = m ∧ FieldRecordOk (buildField m s) := by
  have e1 : (BitVec.ofNat 5 m).toNat = m := by rw [BitVec.toNat_ofNat, Nat.mod_eq_of_lt (by omega)]
  have e2 : (BitVec.ofNat 25 (2 ^ m)).toNat = 2 ^ m := by
    rw [BitVec.toNat_ofNat, Nat.mod_eq_of_lt (Nat.pow_lt_pow_right (by omega) (by omega))]
  have e3 : (BitVec.ofNat 25 (irred m)).toNat = irred m := by
    rw [BitVec.toNat_ofNat, Nat.mod_eq_of_lt (irred_lt h1 h2)]
  refine ⟨e1, fun h => absurd h (by simp), fun _ => ?_⟩
  simp only [buildField, e1, e2, e3, true_and]
  exact ⟨h1, h2, (irredOf_ok _ h1 h2).1⟩

/-- A command keeps the invariant, and only a successful SETDEG changes the field record. -/
theorem exec_keeps_inv {i : Instr} {s t : State} (hi : Inv s) (h : exec i s = .next t) :
    Inv t ∧ ((t.fv = s.fv ∧ t.degree = s.degree ∧ t.order = s.order ∧ t.modulus = s.modulus) ∨
      ∃ imm, i = .setdeg imm ∧ 1 ≤ imm ∧ imm ≤ 24 ∧ t.degree.toNat = imm) := by
  obtain ⟨hr, hs⟩ := hi
  cases effect_of_exec h with
  | raised e he => exact ⟨⟨hr, fun h => by cases h⟩, .inl ⟨rfl, rfl, rfl, rfl⟩⟩
  | wrote rd v hd => exact ⟨⟨hr, fun h => by cases h⟩, .inl ⟨rfl, rfl, rfl, rfl⟩⟩
  | inverted rd rs1 hi hf =>
    refine ⟨⟨hr, fun h => ⟨rfl, hf, ?_⟩⟩, .inl ⟨rfl, rfl, rfl, rfl⟩⟩
    simp only [completeInv, succeed_di, degenerateFlag, bne_iff_ne] at h
    intro hg
    apply h
    rw [← BitVec.toNat_inj] at hg
    simp [completeInv] at hg
    rw [Nat.mod_eq_of_lt] at hg
    · exact hg
    · exact invEea_gcd_lt s _
  | built m hi h1 h2 =>
    obtain ⟨hd, hr'⟩ := buildField_ok h1 h2 s
    exact ⟨⟨hr', fun h => by cases h⟩, .inr ⟨m, hi, h1, h2, hd⟩⟩

end Sys2Proof.Machine
end

