-- ==== Sys2Proof/Laws/Power.lean ====
section
/-! SUPPORT. Products and powers modulo a polynomial (spec/42_multiply.md R122; spec/43_power.md R140, R143), and the
polynomials of the table as irreducible polynomials (spec/10_state.md R23). -/

namespace Sys2Proof.Machine

open Polynomial Sys2Proof.Gf2

theorem dvd_mult_sub {p : Nat} (hp : p ≠ 0) (a b : Nat) : toPoly p ∣ toPoly (mult a b p) - toPoly a * toPoly b := by
  rw [toPoly_mult hp, modByMonic_eq_sub_mul_div]
  exact ⟨-(toPoly a * toPoly b /ₘ toPoly p), by ring⟩

theorem irreducible_irred {m : Nat} (h1 : 1 ≤ m) (h2 : m ≤ 24) : Irreducible (toPoly (irred m)) := by
  obtain ⟨hb, hn⟩ := irredOf_ok Config.irredFree h1 h2
  exact irreducible_toPoly (by rw [irred, hb]; omega) hn

theorem bitlen_irred {m : Nat} (h1 : 1 ≤ m) (h2 : m ≤ 24) : bitlen (irred m) = m + 1 := (irredOf_ok _ h1 h2).1

/-- A natural is shorter than the modulus exactly when it is a valid element. -/
theorem valid_iff {m : Nat} (h1 : 1 ≤ m) (h2 : m ≤ 24) (a : Nat) : bitlen a < bitlen (irred m) ↔ a < 2 ^ m := by
  rw [bitlen_irred h1 h2, Nat.lt_succ_iff, bitlen_le_iff]

theorem irred_not_dvd {m a : Nat} (h1 : 1 ≤ m) (h2 : m ≤ 24) (h0 : a ≠ 0) (ha : a < 2 ^ m) : ¬ toPoly (irred m) ∣ toPoly a := by
  rw [← polyrem_eq_zero_iff (irred_ne h1 h2), polyrem_of_lt ((valid_iff h1 h2 a).2 ha)]; exact h0

theorem eq_modByMonic {p v : Nat} {f : (ZMod 2)[X]} (hp : p ≠ 0) (h : bitlen v < bitlen p) (hd : toPoly p ∣ toPoly v - f) :
    toPoly v = f %ₘ toPoly p := by
  rw [← (modByMonic_eq_self_iff (monic_toPoly hp)).2 ((degree_toPoly_lt hp).2 h), ← sub_eq_zero, ← sub_modByMonic,
    modByMonic_eq_zero_iff_dvd (monic_toPoly hp)]
  exact hd

/-- `pot` is the power modulo p (R140). -/
theorem toPoly_pot {p : Nat} (hp : 2 ≤ bitlen p) (a n : Nat) : toPoly (pot a n p) = toPoly a ^ n %ₘ toPoly p := by
  have hp0 : p ≠ 0 := by rw [← bitlen_pos]; omega
  induction n with
  | zero =>
    rw [pot, toPoly_one, pow_zero]
    symm; rw [modByMonic_eq_self_iff (monic_toPoly hp0), ← toPoly_one, degree_toPoly_lt hp0]
    exact lt_of_lt_of_le (by decide) hp
  | succ n ih =>
    rw [pot, toPoly_mult hp0, ih, pow_succ, ← sub_eq_zero, ← sub_modByMonic, modByMonic_eq_zero_iff_dvd (monic_toPoly hp0)]
    rw [modByMonic_eq_sub_mul_div]
    exact ⟨-(toPoly a ^ n /ₘ toPoly p) * toPoly a, by ring⟩

/-- A power is below the modulus in length (R140). -/
theorem bitlen_pot_lt {p : Nat} (hp : 2 ≤ bitlen p) (a n : Nat) : bitlen (pot a n p) < bitlen p := by
  have hp0 : p ≠ 0 := by rw [← bitlen_pos]; omega
  cases n with
  | zero => show bitlen 1 < _; exact lt_of_lt_of_le (by decide) hp
  | succ n => exact bitlen_polyrem_lt hp0 _

theorem toPoly_potSquaringLoop {p : Nat} (hp : p ≠ 0) : ∀ n acc sq e, bitlen e ≤ n →
    toPoly p ∣ toPoly (potSquaringLoop p n acc sq e) - toPoly acc * toPoly sq ^ e
  | 0, acc, sq, e, h => by
    have : e = 0 := by simpa using h
    subst this; simp [potSquaringLoop]
  | n + 1, acc, sq, e, h => by
    unfold potSquaringLoop
    split
    · rename_i he; subst he; simp
    · have h1 := toPoly_potSquaringLoop hp n (if e % 2 = 1 then mult acc sq p else acc) (mult sq sq p) (e / 2) (bitlen_div2 h)
      have h2 : toPoly p ∣ toPoly (mult sq sq p) ^ (e / 2) - (toPoly sq * toPoly sq) ^ (e / 2) :=
        (dvd_mult_sub hp sq sq).trans (sub_dvd_pow_sub_pow _ _ _)
      obtain ⟨x, hx⟩ := h1
      obtain ⟨y, hy⟩ := h2
      have he : toPoly sq ^ e = (toPoly sq * toPoly sq) ^ (e / 2) * toPoly sq ^ (e % 2) := by
        rw [← pow_two, ← pow_mul, ← pow_add]; congr 1; omega
      split at hx
      · rename_i h1
        rw [if_pos h1, he, h1]
        obtain ⟨z, hz⟩ := dvd_mult_sub hp acc sq
        refine ⟨x + toPoly (mult acc sq p) * y + z * (toPoly sq * toPoly sq) ^ (e / 2), ?_⟩
        linear_combination hx + toPoly (mult acc sq p) * hy + (toPoly sq * toPoly sq) ^ (e / 2) * hz
      · have h0 : e % 2 = 0 := by omega
        rw [if_neg (by omega), he, h0]
        refine ⟨x + toPoly acc * y, ?_⟩
        linear_combination hx + toPoly acc * hy

theorem bitlen_potSquaringLoop {p : Nat} (hp : p ≠ 0) : ∀ n acc sq e, bitlen acc < bitlen p →
    bitlen (potSquaringLoop p n acc sq e) < bitlen p
  | 0, acc, sq, e, h => h
  | n + 1, acc, sq, e, h => by
    unfold potSquaringLoop
    split
    · exact h
    · apply bitlen_potSquaringLoop hp
      split
      · exact bitlen_polyrem_lt hp _
      · exact h

end Sys2Proof.Machine
end

