-- ==== Sys2Proof/Laws/Inverse.lean ====
section
/-! SUPPORT. Inverses in the fields of the table (spec/44_division_inverse.md R155 to R157), and the sizes of the quotient and
the remainder of words (R151, R152). -/

namespace Sys2Proof.Machine

open Polynomial Sys2Proof.Gf2

theorem bitlen_word_le (w : Word) : bitlen w.toNat ≤ 32 := bitlen_le_iff.2 w.isLt

theorem quot_lt (a : Word) {p : Nat} (hp : p ≠ 0) : (polydivmod a.toNat p).1 < 2 ^ 32 := by
  rw [← bitlen_le_iff]
  have := bitlen_word_le a
  have := bitlen_pos.2 hp
  by_cases h : bitlen p ≤ bitlen a.toNat
  · have := bitlen_polydivmod_fst hp h; omega
  · rw [polydivmod_of_lt (by omega)]; simp

theorem rem_lt (a p : Word) (hp : p.toNat ≠ 0) : (polydivmod a.toNat p.toNat).2 < 2 ^ 32 := by
  rw [← bitlen_le_iff]
  have := bitlen_word_le p
  have := (toPoly_polydivmod hp a.toNat).2
  omega

/-- A natural that the modulus does not divide has an inverse, and `inv_eea` finds it (R155, R156). -/
theorem invEea_of_not_dvd {m a : Nat} (h1 : 1 ≤ m) (h2 : m ≤ 24) (h : polyrem a (irred m) ≠ 0) :
    (invEea a (irred m)).2 = 1 ∧ (invEea a (irred m)).1 < 2 ^ m ∧ mult a (invEea a (irred m)).1 (irred m) = 1 := by
  have hp := irred_ne h1 h2
  have hb := bitlen_irred h1 h2
  have hi := irreducible_irred h1 h2
  obtain ⟨hz, hda, hdp⟩ := invEea_bezout hp a
  have hg0 := bitlen_invEea_gcd hp a
  have hg : (invEea a (irred m)).2 = 1 := by
    rcases hi.dvd_iff.1 hdp with hu | ha
    · have hd := natDegree_eq_zero_of_isUnit hu
      rw [natDegree_toPoly hg0.1] at hd
      have hpos := bitlen_pos.2 hg0.1
      have hb1 : bitlen (invEea a (irred m)).2 ≤ 1 := by omega
      rw [bitlen_le_iff] at hb1
      have := hg0.1; omega
    · exact absurd ((polyrem_eq_zero_iff hp a).2 (ha.dvd.trans hda)) h
  have hv := bitlen_invEea_inverse (p := irred m) (by omega) a
  refine ⟨hg, (valid_iff h1 h2 _).1 hv, ?_⟩
  rw [← toPoly_inj, toPoly_mult hp]
  symm
  apply eq_modByMonic hp (by rw [show bitlen 1 = 1 from rfl, hb]; omega)
  rw [hg] at hz
  rwa [mul_comm]

/-- The loop ends in its first pass for a multiple of the modulus (R155). -/
theorem invEea_of_dvd {m a : Nat} (h1 : 1 ≤ m) (h2 : m ≤ 24) (h : polyrem a (irred m) = 0) : invEea a (irred m) = (0, irred m) := by
  have hp := irred_ne h1 h2
  have hb := bitlen_irred h1 h2
  rw [polyrem_eq_snd hp] at h
  unfold invEea
  rw [hb, invEeaLoop_succ, if_pos h]

/-- The inverse is the only valid element with product 1. -/
theorem eq_invEea {m a b : Nat} (h1 : 1 ≤ m) (h2 : m ≤ 24) (hb : b < 2 ^ m) (hm : mult a b (irred m) = 1) :
    b = (invEea a (irred m)).1 := by
  have hp := irred_ne h1 h2
  have hi := irreducible_irred h1 h2
  have ha : polyrem a (irred m) ≠ 0 := by
    intro h0
    have hd := (polyrem_eq_zero_iff hp a).1 h0
    have : polyrem (clmul a b) (irred m) = 0 := by rw [polyrem_eq_zero_iff hp, toPoly_clmul]; exact hd.mul_right _
    rw [mult, this] at hm; cases hm
  obtain ⟨-, hlt, he⟩ := invEea_of_not_dvd h1 h2 ha
  have hd := (polyrem_eq_iff hp _ _).1 (hm.trans he.symm)
  rw [toPoly_clmul, toPoly_clmul, ← mul_sub] at hd
  rcases hi.prime.2.2 _ _ hd with h | h
  · exact absurd ((polyrem_eq_zero_iff hp a).2 h) ha
  · have := (polyrem_eq_iff hp _ _).2 h
    rwa [polyrem_of_lt ((valid_iff h1 h2 _).2 hb), polyrem_of_lt ((valid_iff h1 h2 _).2 hlt)] at this

end Sys2Proof.Machine
end

