-- ==== Sys2Proof/Laws/PerInstr.lean ====
section
/-! SUPPORT. Per instruction: decoding the word of a well-formed command gives the command back (spec/30_encoding.md R92). -/

namespace Sys2Proof.Laws.RoundTrip

open Sys2Proof

/-- Decoding inverts encoding at this command. -/
def Statement (i : Instr) : Prop := i.WellFormed → decode (encode i) = .cmd i

/-- A command of format R3. -/
theorem of_r3 {op : Nat} {c : Reg → Reg → Reg → Instr} (hop : op < 256)
    (hd : ∀ w, (fieldOpcode w).toNat = op → decode w = decodeR3 c w) (rd rs1 rs2 : Reg) :
    decode (packFields op rd rs1 rs2 0) = .cmd (c rd rs1 rs2) := by
  have h0 : (0 : Nat) < 4096 := by decide
  rw [hd _ (fieldOpcode_pack hop h0 rd rs1 rs2), decodeR3, if_pos ((fieldImm_pack_eq_zero hop h0 rd rs1 rs2).2 rfl),
    fieldRd_pack hop h0, fieldRs1_pack hop h0, fieldRs2_pack hop h0]

/-- A command of format R2. -/
theorem of_r2 {op : Nat} {c : Reg → Reg → Instr} (hop : op < 256)
    (hd : ∀ w, (fieldOpcode w).toNat = op → decode w = decodeR2 c w) (rd rs1 : Reg) :
    decode (packFields op rd rs1 0 0) = .cmd (c rd rs1) := by
  have h0 : (0 : Nat) < 4096 := by decide
  rw [hd _ (fieldOpcode_pack hop h0 rd rs1 0), decodeR2,
    if_pos ⟨fieldRs2_pack hop h0 rd rs1 0, (fieldImm_pack_eq_zero hop h0 rd rs1 0).2 rfl⟩,
    fieldRd_pack hop h0, fieldRs1_pack hop h0]

theorem setdeg (imm : Nat) : Statement (.setdeg imm) := by
  intro hw
  have hop : 0x01 < 256 := by decide
  have himm : imm < 4096 := hw
  have hd : ∀ w, (fieldOpcode w).toNat = 0x01 → decode w = decodeI .setdeg w := fun w h => by simp only [decode, h]
  rw [encode, hd _ (fieldOpcode_pack hop himm 0 0 0), decodeI,
    if_pos ⟨fieldRd_pack hop himm 0 0 0, fieldRs1_pack hop himm 0 0 0, fieldRs2_pack hop himm 0 0 0⟩,
    fieldImm_pack hop himm]

theorem add (rd rs1 rs2 : Reg) : Statement (.add rd rs1 rs2) := fun _ =>
  of_r3 (by decide) (fun w h => by simp only [decode, h]) rd rs1 rs2

theorem mul (rd rs1 rs2 : Reg) : Statement (.mul rd rs1 rs2) := fun _ =>
  of_r3 (by decide) (fun w h => by simp only [decode, h]) rd rs1 rs2

theorem pow (rd rs1 rs2 : Reg) : Statement (.pow rd rs1 rs2) := fun _ =>
  of_r3 (by decide) (fun w h => by simp only [decode, h]) rd rs1 rs2

theorem inv (rd rs1 : Reg) : Statement (.inv rd rs1) := fun _ =>
  of_r2 (by decide) (fun w h => by simp only [decode, h]) rd rs1

theorem bitlen (rd rs1 : Reg) : Statement (.bitlen rd rs1) := fun _ =>
  of_r2 (by decide) (fun w h => by simp only [decode, h]) rd rs1

theorem clmul (rd rs1 rs2 : Reg) : Statement (.clmul rd rs1 rs2) := fun _ =>
  of_r3 (by decide) (fun w h => by simp only [decode, h]) rd rs1 rs2

theorem clmulh (rd rs1 rs2 : Reg) : Statement (.clmulh rd rs1 rs2) := fun _ =>
  of_r3 (by decide) (fun w h => by simp only [decode, h]) rd rs1 rs2

theorem pred (rd rs1 rs2 : Reg) : Statement (.pred rd rs1 rs2) := fun _ =>
  of_r3 (by decide) (fun w h => by simp only [decode, h]) rd rs1 rs2

theorem pdiv (rd rs1 rs2 : Reg) : Statement (.pdiv rd rs1 rs2) := fun _ =>
  of_r3 (by decide) (fun w h => by simp only [decode, h]) rd rs1 rs2

theorem prem (rd rs1 rs2 : Reg) : Statement (.prem rd rs1 rs2) := fun _ =>
  of_r3 (by decide) (fun w h => by simp only [decode, h]) rd rs1 rs2

end Sys2Proof.Laws.RoundTrip
end

