-- ==== Sys2Proof/Laws/Window.lean ====
section
/-! SUPPORT. The register window as a table (spec/20_memory.md R51, R52), one step of a read and of a register write, and one
step of a run. -/

namespace Sys2Proof.Machine

theorem run_succ (n : Nat) {s t : State} (h : step s = .next t) : Host.Core.run core (n + 1) s = Host.Core.run core n t := by
  have h' : core.step s = .next t := h
  have := Host.Core.run.eq_2 core s n
  rw [h'] at this
  exact this

theorem windowReg_x {off : Nat} {r : Reg} (h : off = 4 * r.val) : windowReg off = some (.x r) := by
  subst h; revert r; decide

theorem busRead_of {off : Nat} {w : WindowReg} {v : Word} {s : State} (h : windowReg off = some w) (h' : windowWord s w = some v) : busRead off 4 s = .data v := by
  simp [busRead, h, h']

theorem step_read {off : Fin 256} {v : Word} {s : State} {rest : List HostAction} (h : busRead off.val 4 s = .data v) (hp : s.pending = .memRead off 4 :: rest) :
    step s = .next (respond (.data v) { s with pending := rest }) := by
  rw [step_cons hp]; simp only [serve]
  have : busRead off 4 { s with pending := rest } = busRead off 4 s := rfl
  rw [this, h]

theorem step_write {off : Fin 256} {v : Word} {s : State} {r : Reg} {rest : List HostAction} (h : off.val = 4 * r.val) (hp : s.pending = .memWrite off 4 v.toNat :: rest) :
    step s = .next (respond .done (writeReg r v { s with pending := rest })) := by
  rw [step_cons hp]; simp only [serve, busWrite, windowReg_x h, BitVec.ofNat_toNat, BitVec.setWidth_eq]; rfl

set_option maxRecDepth 5000 in
/-- The mapped offsets (R51). -/
theorem windowReg_some : ∀ off : Fin 256, (windowReg off.val).isSome = decide (off.val % 4 = 0 ∧ off.val ≤ 0x54) := by decide

set_option maxRecDepth 5000 in
theorem windowReg_cmd : ∀ off : Fin 256, windowReg off.val = some .cmd ↔ off.val = 0x40 := by decide

set_option maxRecDepth 5000 in
/-- The offsets a write is legal at (R52). -/
theorem windowReg_wr : ∀ off : Fin 256, ((∃ r, windowReg off.val = some (.x r)) ∨ windowReg off.val = some .cmd) ↔ (off.val % 4 = 0 ∧ off.val ≤ 0x40) := by decide

end Sys2Proof.Machine
end

