-- ==== Sys2Proof/Laws/Run.lean ====
section
/-! SUPPORT. What serving an action does to the host's side of a run (spec/70_reset_and_hazards.md R207; log 1): the list is
left alone, one response is added for a transaction and none for a reset, and nothing looks at the list. -/

namespace Sys2Proof.Machine

theorem serve_host {a : HostAction} {s t : State} (h : serve a s = .next t) :
    t.pending = s.pending ∧
    ∃ new, t.responses = s.responses ++ new ∧ new.length = if a = .reset then 0 else 1 := by
  obtain ⟨u, hu, hs⟩ := serve_served a s
  rw [hu] at h; cases h
  cases hs with
  | answered r hr ha => exact ⟨rfl, [r], rfl, by simp [ha]⟩
  | wroteReg off n v r ha hn hw => subst ha; exact ⟨rfl, [.done], rfl, rfl⟩
  | ran off n v t ha hn hw ht =>
    subst ha
    have : t.pending = s.pending ∧ t.responses = s.responses := by
      rcases runCommand_cases ht with ⟨i, -, he⟩ | ⟨_, -, rfl⟩
      · exact exec_host he
      · exact ⟨rfl, rfl⟩
    exact ⟨this.1, [.done], by simp [this.2], rfl⟩
  | wasReset ha => subst ha; exact ⟨rfl, [], by simp [resetBlock], rfl⟩

/-- The command looks at the host's list in no way. -/
theorem exec_withPending {i : Instr} {s t : State} (h : exec i s = .next t) (p : List HostAction) :
    exec i { s with pending := p } = .next { t with pending := p } := by
  cases i with
  | setdeg imm =>
    simp only [exec, execSetdeg] at *
    split at h <;> cases h
    · rw [if_pos ‹_›]; rfl
    · rw [if_neg ‹_›]; rfl
  | pow rd a b =>
    simp only [exec, execPow, withField] at *
    split at h
    · split at h <;> cases h
      · rw [if_pos (by assumption), if_pos (by assumption)]; rfl
      · rw [if_pos (by assumption), if_neg (by assumption)]; rfl
    · cases h; rw [if_neg (by assumption)]; rfl
  | add rd a b =>
    simp only [exec, execAdd, withField] at *
    split at h <;> cases h
    · rw [if_pos (by assumption)]; rfl
    · rw [if_neg (by assumption)]; rfl
  | mul rd a b =>
    simp only [exec, execMul, withField] at *
    split at h <;> cases h
    · rw [if_pos (by assumption)]; rfl
    · rw [if_neg (by assumption)]; rfl
  | pred rd a b =>
    simp only [exec, execPred, withField] at *
    split at h <;> cases h
    · rw [if_pos (by assumption)]; rfl
    · rw [if_neg (by assumption)]; rfl
  | inv rd a =>
    simp only [exec, execInv, withField] at *
    split at h <;> cases h
    · rw [if_pos (by assumption)]; rfl
    · rw [if_neg (by assumption)]; rfl
  | pdiv rd a b =>
    simp only [exec, execPdiv, withDivisor] at *
    split at h <;> cases h
    · rw [if_pos (by assumption)]; rfl
    · rw [if_neg (by assumption)]; rfl
  | prem rd a b =>
    simp only [exec, execPrem, withDivisor] at *
    split at h <;> cases h
    · rw [if_pos (by assumption)]; rfl
    · rw [if_neg (by assumption)]; rfl
  | bitlen rd a => cases h; rfl
  | clmul rd a b => cases h; rfl
  | clmulh rd a b => cases h; rfl

theorem serve_withPending {a : HostAction} {s t : State} (h : serve a s = .next t) (p : List HostAction) :
    serve a { s with pending := p } = .next { t with pending := p } := by
  cases a with
  | reset => cases h; rfl
  | memRead off n => cases h; rfl
  | memWrite off n v =>
    by_cases hn : n = 4
    · cases hw : windowReg off.val with
      | none => simp only [serve, busWrite, if_pos hn, hw] at *; cases h; rfl
      | some w =>
        cases w with
        | cmd =>
          obtain ⟨u, hu⟩ := runCommand_next (BitVec.ofNat 32 v) s
          have hu' : runCommand (BitVec.ofNat 32 v) { s with pending := p } = .next { u with pending := p } := by
            unfold runCommand at *
            split at hu
            · simp only [exec_withPending hu p]
            · cases hu; rfl
          simp only [serve, busWrite, if_pos hn, hw, hu, hu'] at *
          cases h; rfl
        | _ => simp only [serve, busWrite, if_pos hn, hw] at *; cases h; rfl
    · simp only [serve, busWrite, if_neg hn] at *; cases h; rfl

/-- A host program that ends the run. -/
theorem runProgram_none {program : HostProgram} {taken : Nat} {s : State} (h : program taken s.responses = none) (n : Nat) :
    runProgram program n taken s = .next s := by
  cases n with
  | zero => rfl
  | succ n => simp only [runProgram, h]

/-- A host program that chooses an action: one step serves it, a reset too, and the action counts as taken. -/
theorem runProgram_some {program : HostProgram} {taken : Nat} {s t : State} {a : HostAction}
    (h : program taken s.responses = some a) (ht : step { s with pending := [a] } = .next t) (n : Nat) :
    runProgram program (n + 1) taken s = runProgram program n (taken + 1) t := by
  simp only [runProgram, h, ht]

end Sys2Proof.Machine
end

