-- ==== Sys2Proof/Tests/Slice0.lean ====
section
/-! SUPPORT. The model's own tests: ill-formed terms refused, one word of every command written out bit by bit, at most two
one-step tests per command, the register window, and for every statement with hypotheses a witness that meets them. Expected
values are those of spec/95_test_vectors.md unless a comment says otherwise. -/

namespace Sys2Proof.Tests

open Sys2Proof Sys2Proof.Machine Sys2Proof.Gf2

/-! ## Helpers -/

/-- The reset state with the field of degree 4, whose modulus 0x13 the spec fixes (R24). -/
def field4 : State := buildField 4 State.reset

/-- A state with `x1 = a` and `x2 = b`. -/
def two (a b : Word) (s : State) : State := writeReg 1 a (writeReg 2 b s)

/-- What a register holds after a command, and `STATUS` beside it. -/
def after (r : Reg) : Result → Option (Word × Word)
  | .next t => some (readReg t r, statusWord t)
  | .fault _ => none
  | .refused _ => none

/-- The last response of a step. -/
def lastResponse : Result → Option Response
  | .next t => t.responses.getLast?
  | .fault _ => none
  | .refused _ => none

/-- The response to one action in a state. -/
def answer (a : HostAction) (s : State) : Option Response := lastResponse (step { s with pending := [a] })

/-! ## Well-formedness: the ill-formed terms are refused -/

theorem test_wf_immediate_too_large : (Instr.setdeg 4096).wellFormed = false ∧ ¬ (Instr.setdeg 4096).WellFormed := by decide
theorem test_wf_immediate_largest : (Instr.setdeg 4095).wellFormed = true ∧ (Instr.setdeg 4095).WellFormed := by decide
theorem test_wf_write_data_too_wide :
    (HostAction.memWrite 0 1 256).wellFormed = false ∧ (HostAction.memWrite 0 1 255).wellFormed = true := by decide

/-! ## Decoding: a word of each command, opcode rd rs1 rs2 imm12 (R81, R84) -/

theorem test_decode_setdeg : decode 0b00000001_0000_0000_0000_000000011000 = .cmd (.setdeg 24) := by decide
theorem test_decode_add : decode 0b00010000_1010_1011_1100_000000000000 = .cmd (.add 10 11 12) := by decide
theorem test_decode_mul : decode 0b00010001_1010_1011_1100_000000000000 = .cmd (.mul 10 11 12) := by decide
theorem test_decode_pow : decode 0b00010010_1010_1011_1100_000000000000 = .cmd (.pow 10 11 12) := by decide
theorem test_decode_inv : decode 0b00010011_1010_1011_0000_000000000000 = .cmd (.inv 10 11) := by decide
theorem test_decode_bitlen : decode 0b00100000_1010_1011_0000_000000000000 = .cmd (.bitlen 10 11) := by decide
theorem test_decode_clmul : decode 0b00100001_1010_1011_1100_000000000000 = .cmd (.clmul 10 11 12) := by decide
theorem test_decode_clmulh : decode 0b00100010_1010_1011_1100_000000000000 = .cmd (.clmulh 10 11 12) := by decide
theorem test_decode_pred : decode 0b00100011_1010_1011_1100_000000000000 = .cmd (.pred 10 11 12) := by decide
theorem test_decode_pdiv : decode 0b00100100_1010_1011_1100_000000000000 = .cmd (.pdiv 10 11 12) := by decide
theorem test_decode_prem : decode 0b00100101_1010_1011_1100_000000000000 = .cmd (.prem 10 11 12) := by decide

/-- The illegal words of section 2.1. -/
theorem test_decode_illegal :
    ([0x00000000, 0xFFFFFFFF, 0x02000004, 0x0F000000, 0x14210000, 0x1F000000, 0x26312000, 0x30000000].all fun w =>
      decode w == .illegal .unassignedOpcode) = true ∧
    ([0x01100004, 0x01010004, 0x01001004, 0x11312001, 0x10312800, 0x13211000, 0x13210001, 0x2021F000, 0x25312FFF].all
      fun w => decode w == .illegal .nonzeroUnusedField) = true := by decide

/-- The words of section 2.1, encoded. -/
theorem test_encode :
    encode (.setdeg 4095) = 0x01000FFF ∧ encode (.inv 15 0) = 0x13F00000 ∧ encode (.pred 5 4 3) = 0x23543000 := by decide

theorem test_decodeTableWord :
    decodeTableWord 32 0x11312000 = some (.mul 3 1 2) ∧ decodeTableWord 32 0x11312001 = none := by decide

/-! ## One step of each command -/

theorem test_setdeg_builds : (field4.degree, field4.order, field4.modulus) = (4, 0x10, 0x13) ∧
    after 0 (exec (.setdeg 4) State.reset) = some (0, 0x100) := by decide
theorem test_setdeg_25_keeps_the_field : after 0 (exec (.setdeg 25) field4) = some (0, 0x101) := by decide
theorem test_add : after 3 (exec (.add 3 1 2) (two 0xFFFFFFFF 0x0F0F0F0F field4)) = some (0xF0F0F0F0, 0x100) := by decide
theorem test_add_source_is_destination : after 1 (exec (.add 1 1 2) (two 6 3 field4)) = some (5, 0x100) := by decide
theorem test_mul : after 3 (exec (.mul 3 1 2) (two 13 11 field4)) = some (6, 0x100) := by decide
theorem test_mul_no_field : after 3 (exec (.mul 3 1 2) (two 3 7 State.reset)) = some (0, 0x3) := by decide
theorem test_pow : after 3 (exec (.pow 3 1 2) (two 9 13 field4)) = some (4, 0x100) := by decide
theorem test_pow_negative : after 1 (exec (.pow 1 1 2) (two 6 0x80000000 field4)) = some (6, 0x102) := by decide
theorem test_inv : after 2 (exec (.inv 2 1) (two 0xDEADBEEF 0 field4)) = some (7, 0x100) := by decide
theorem test_inv_of_zero : after 2 (exec (.inv 2 1) (two 0 9 field4)) = some (0, 0x110) := by decide
theorem test_bitlen : after 2 (exec (.bitlen 2 1) (two 0x80000000 0 State.reset)) = some (32, 0) := by decide
theorem test_clmul : after 3 (exec (.clmul 3 1 2) (two 0xFFFFFFFF 0xFFFFFFFF State.reset)) = some (0x55555555, 0) := by decide
theorem test_clmulh : after 3 (exec (.clmulh 3 1 2) (two 0x80000000 0x80000000 State.reset)) = some (0x40000000, 0) := by
  decide
theorem test_pred : after 3 (exec (.pred 3 1 2) (two 0x80000000 0 field4)) = some (8, 0x100) := by decide
theorem test_pred_low_half : after 3 (exec (.pred 3 1 2) (two 0 0x7F field4)) = some (6, 0x100) := by decide
theorem test_pdiv : after 3 (exec (.pdiv 3 1 2) (two 0xDEADBEEF 0x13 State.reset)) = some (0x0CB74777, 0) := by decide
theorem test_pdiv_by_zero : after 1 (exec (.pdiv 1 1 2) (two 6 0 State.reset)) = some (6, 0x4) := by decide
theorem test_prem : after 3 (exec (.prem 3 1 2) (two 0xDEADBEEF 0xCAFEBABE State.reset)) = some (0x14530451, 0) := by decide
theorem test_prem_by_zero : after 1 (exec (.prem 1 1 2) (two 6 0 field4)) = some (6, 0x104) := by decide

/-! ## The register window (section 2.12) -/

theorem test_window_reads :
    answer (.memRead 0x08 4) (two 6 7 field4) = some (.data 7) ∧
    answer (.memRead 0x44 4) field4 = some (.data 0x100) ∧
    answer (.memRead 0x50 4) field4 = some (.data 0x13) ∧
    answer (.memRead 0x40 4) field4 = some .busError ∧
    answer (.memRead 0x58 4) field4 = some .busError ∧
    answer (.memRead 0x46 2) field4 = some .busError := by decide
theorem test_window_writes :
    answer (.memWrite 0x44 4 0) field4 = some .busError ∧
    answer (.memWrite 0x41 4 0x11312000) field4 = some .busError ∧
    answer (.memWrite 0x40 4 0x11312001) field4 = some .done := by decide
theorem test_illegal_word_raises : after 0 (step (State.reset.withFetchWord 32 0)) = some (0, 0x5) := by decide
theorem test_fetch_word_runs : after 3 (step ((two 3 7 field4).withFetchWord 32 0x11312000)) = some (9, 0x100) := by decide
theorem test_listing :
    assembly (.mul 3 1 12) = "MUL x3, x1, x12" ∧ assembly (.inv 15 0) = "INV x15, x0" ∧
    lineAction (.command (.mul 3 1 2)) = .memWrite 0x40 4 0x11312000 ∧ lineAction (.wr 2 7) = .memWrite 0x08 4 7 ∧
    lineAction (.rd .modulus) = .memRead 0x50 4 := by decide
theorem test_byte_lanes : windowByte field4 0x45 = some 1 ∧ windowByte field4 0x44 = some 0 ∧ windowByte field4 0x40 = none := by
  decide

/-! ## Witnesses: states and operands that meet the hypotheses of each statement, clause by clause -/

theorem field4_ok : FieldRecordOk field4 ∧ field4.fv = true ∧ Inv field4 := by decide

theorem two_ok (a b : Word) : FieldRecordOk (two a b field4) := field4_ok.1

theorem witness_DecodeInvertsEncode : (Instr.setdeg 4095).WellFormed ∧ (Instr.prem 15 0 15).WellFormed := by decide
theorem witness_EncodeInvertsDecode : decode 0x01000FFF = .cmd (.setdeg 4095) := by decide

/-- A word for each clause of the pseudocode, with fields at the ends of their ranges. -/
theorem witness_DecodeFollowsPseudocode :
    (0x01000FFF : Word) = BitVec.ofNat 32 ((1 <<< 24) ||| (0 <<< 20) ||| (0 <<< 16) ||| (0 <<< 12) ||| 4095) ∧
    (0x01F00000 : Word) = BitVec.ofNat 32 ((1 <<< 24) ||| (15 <<< 20) ||| (0 <<< 16) ||| (0 <<< 12) ||| 0) ∧
    (0x10FFF000 : Word) = BitVec.ofNat 32 ((0x10 <<< 24) ||| (15 <<< 20) ||| (15 <<< 16) ||| (15 <<< 12) ||| 0) ∧
    (0x25000FFF : Word) = BitVec.ofNat 32 ((0x25 <<< 24) ||| (0 <<< 20) ||| (0 <<< 16) ||| (0 <<< 12) ||| 4095) ∧
    (0x13FF0000 : Word) = BitVec.ofNat 32 ((0x13 <<< 24) ||| (15 <<< 20) ||| (15 <<< 16) ||| (0 <<< 12) ||| 0) ∧
    (0x2000F001 : Word) = BitVec.ofNat 32 ((0x20 <<< 24) ||| (0 <<< 20) ||| (0 <<< 16) ||| (15 <<< 12) ||| 1) ∧
    (0xFFFFFFFF : Word) = BitVec.ofNat 32 ((255 <<< 24) ||| (15 <<< 20) ||| (15 <<< 16) ||| (15 <<< 12) ||| 4095) := by decide

theorem witness_OpcodeMapDecidesTheCommand :
    (⟨"MUL", .r3, 0x11000000, 0xFF000FFF⟩ : OpcodeRow) ∈ opcodeTable ∧
    (0x11312000 : Word) &&& (0xFF000FFF : Word) = 0x11000000 := by decide
theorem witness_IllegalWordsEndWithIllegalCommand :
    (∀ row ∈ opcodeTable, (0x26000000 : Word) &&& row.mask ≠ row.value) ∧
    (∀ row ∈ opcodeTable, (0x11312001 : Word) &&& row.mask ≠ row.value) ∧
    (∃ row ∈ opcodeTable, (0x11312000 : Word) &&& row.mask = row.value) ∧ 255 < 256 := by decide
theorem witness_StepRunsDecodedCommand :
    0x25FFF000 < 2 ^ 32 ∧ decode (BitVec.ofNat 32 0x25FFF000) = .cmd (.prem 15 15 15) ∧
    decodeTableWord 32 0x25FFF000 = some (.prem 15 15 15) ∧ State.reset.pending = [] := by decide
theorem witness_ListingLinesRun : (Instr.setdeg 4095).WellFormed ∧ WindowReg.x 15 ≠ .cmd ∧ WindowReg.gcd ≠ .cmd := by decide
theorem witness_PassBoundsNeverCutALoop : (0x13 : Nat) ≠ 0 := by decide
theorem witness_BitlenIsHighestSetBit :
    0 < 0x13 ∧ Nat.testBit 0x13 4 = true ∧ (∀ j, Nat.testBit 0x13 j = true → j ≤ 4) ∧ 0x13 < 2 ^ 5 :=
  ⟨by decide, by decide, fun _ h => Nat.le_of_lt_succ (lt_bitlen_of_testBit h), by decide⟩
theorem witness_PolyremIsTheRemainder :
    (0x13 : Nat) ≠ 0 ∧ bitlen 0x13 ≤ bitlen 0x7F ∧ 0x7F = clmul 7 0x13 ^^^ 6 ∧ bitlen 6 < bitlen 0x13 ∧
    FieldRecordOk field4 ∧ field4.fv = true := by decide
theorem witness_MultIsProductReduced :
    2 ≤ bitlen 2 ∧ 2 ≤ bitlen 0x13 ∧ FieldRecordOk field4 ∧ field4.fv = true := by decide
theorem witness_ClmulLaws :
    (1 ≠ 0 ∧ 0xFFFFFFFF ≠ 0) ∧ (1 ≤ 1 ∧ 1 < 2 ^ 1 ∧ 0 < 2 ^ 1) ∧ (0xFFFFFFFF < 2 ^ 32 ∧ 0 < 2 ^ 32) := by decide
theorem witness_PolydivmodIsTheDivision :
    (0x13 : Nat) ≠ 0 ∧ bitlen 0xF < bitlen 0x13 ∧ bitlen 0x13 ≤ bitlen 0x10 ∧ 0x10 = clmul 1 0x13 ^^^ 3 ∧
    bitlen 3 < bitlen 0x13 := by decide
theorem witness_InvEeaSizes : 2 ≤ bitlen 2 ∧ (invEea 1 2).2 = 1 ∧ 2 ≤ bitlen 0x13 ∧ (invEea 6 0x13).2 = 1 := by decide

theorem witness_SetdegBuildsTheField :
    (0 < 4096 ∧ 0 < 1) ∧ (25 < 4096 ∧ 24 < 25) ∧ (1 < 4096 ∧ 1 ≤ 1 ∧ 1 ≤ 24) ∧ (1 ≤ 24 ∧ 24 ≤ 24) ∧
    (FieldRecordOk (buildField 1 State.reset) ∧ (buildField 1 State.reset).fv = true) ∧
    (FieldRecordOk (buildField 24 State.reset) ∧ (buildField 24 State.reset).fv = true) :=
  ⟨by decide, by decide, by decide, by decide, ⟨(buildField_ok (by decide) (by decide) _).2, rfl⟩,
    ⟨(buildField_ok (by decide) (by decide) _).2, rfl⟩⟩
theorem witness_BitlenWritesTheBitLength :
    readReg State.reset 1 = 0 ∧ readReg (two 0xFFFFFFFF 0 State.reset) 1 = 0xFFFFFFFF ∧
    readReg (two 0x80000000 0 State.reset) 1 = 0x80000000 ∧ readReg (two 0x7FFFFFFF 0 State.reset) 1 = 0x7FFFFFFF ∧
    readReg (two 0x13 0 State.reset) 1 = 0x13 := by decide
theorem witness_AddWritesTheXor :
    State.reset.fv = false ∧ (two 15 0 field4).fv = true ∧ FieldRecordOk (two 15 0 field4) ∧
    (readReg (two 15 0 field4) 1).toNat < (two 15 0 field4).order.toNat ∧
    (readReg (two 15 0 field4) 2).toNat < (two 15 0 field4).order.toNat ∧
    readReg (two 6 3 field4) 1 = 6 ∧ readReg (two 6 3 field4) 2 = 3 := by decide
theorem witness_AddLaws :
    (two 15 0 field4).fv = true ∧ readReg (two 15 0 field4) 2 = 0 ∧ FieldRecordOk (two 15 0 field4) ∧
    (readReg (two 15 0 field4) 1).toNat < (two 15 0 field4).order.toNat ∧ (3 : Reg) ≠ 1 ∧ (3 : Reg) ≠ 4 := by decide
theorem witness_ClmulWritesTheLowHalf :
    readReg (two 0 5 State.reset) 1 = 0 ∧ readReg (two 5 1 State.reset) 2 = 1 ∧
    bitlen (readReg (two 0xFFFFFFFF 1 State.reset) 1).toNat + bitlen (readReg (two 0xFFFFFFFF 1 State.reset) 2).toNat ≤ 33 ∧
    (readReg (two 3 7 State.reset) 1 = 3 ∧ readReg (two 3 7 State.reset) 2 = 7) ∧
    (readReg (two 0xFFFFFFFF 0xFFFFFFFF State.reset) 1 = 0xFFFFFFFF ∧
      readReg (two 0xFFFFFFFF 0xFFFFFFFF State.reset) 2 = 0xFFFFFFFF) := by decide
theorem witness_ClmulhWritesTheHighHalf :
    clmul (readReg (two 0xFFFFFFFF 1 State.reset) 1).toNat (readReg (two 0xFFFFFFFF 1 State.reset) 2).toNat < 2 ^ 32 ∧
    (readReg (two 0x80000000 0x80000000 State.reset) 1 = 0x80000000 ∧
      readReg (two 0x80000000 0x80000000 State.reset) 2 = 0x80000000) := by decide
theorem witness_PredWritesTheReduction :
    State.reset.fv = false ∧ FieldRecordOk (two 0 15 field4) ∧ (two 0 15 field4).fv = true ∧
    (readReg field4 1 = 0 ∧ readReg field4 2 = 0) ∧
    bitlen ((readReg (two 0 15 field4) 1).toNat * 2 ^ 32 + (readReg (two 0 15 field4) 2).toNat) ≤
      (two 0 15 field4).degree.toNat ∧
    ((two 0 0x7F field4).degree = 4 ∧ readReg (two 0 0x7F field4) 1 = 0 ∧ readReg (two 0 0x7F field4) 2 = 0x7F) ∧
    (readReg (two 0x5FFF0846 0xB6B7038A field4) 1 = 0x5FFF0846 ∧
      readReg (two 0x5FFF0846 0xB6B7038A field4) 2 = 0xB6B7038A) := by decide
theorem witness_MulWritesTheFieldProduct :
    State.reset.fv = false ∧ (two 15 1 field4).fv = true ∧ FieldRecordOk (two 15 1 field4) ∧
    readReg (two 15 1 field4) 2 = 1 ∧ (readReg (two 15 1 field4) 1).toNat < (two 15 1 field4).order.toNat ∧
    readReg field4 1 = 0 ∧ (two 3 7 field4).degree = 4 ∧ readReg (two 3 7 field4) 1 = 3 ∧ readReg (two 3 7 field4) 2 = 7 ∧
    readReg (two 13 11 field4) 1 = 13 ∧ readReg (two 13 11 field4) 2 = 11 := by decide
theorem witness_MulIsItsTwoPhases :
    (two 13 11 field4).fv = true ∧ (4 : Reg) ≠ 5 ∧ (4 : Reg) ≠ 1 ∧ (4 : Reg) ≠ 2 := by decide
theorem witness_MultLawsInAField :
    (1 ≤ 1 ∧ 1 ≤ 24 ∧ 1 < 2 ^ 1) ∧ (1 ≤ 24 ∧ 24 ≤ 24 ∧ 0xFFFFFF < 2 ^ 24) ∧ mult 0 15 (irred 4) = 0 ∧ (0x13 : Nat) ≠ 0 := by
  decide
theorem witness_PowWritesThePower :
    State.reset.fv = false ∧
    ((two 6 0x80000000 field4).fv = true ∧ (readReg (two 6 0x80000000 field4) 2).toInt < 0) ∧
    (FieldRecordOk (two 6 0x7FFFFFFF field4) ∧ 0 ≤ (readReg (two 6 0x7FFFFFFF field4) 2).toInt) ∧
    (readReg (two 6 0 field4) 2 = 0 ∧ readReg (two 6 1 field4) 2 = 1 ∧ readReg (two 6 2 field4) 2 = 2) ∧
    (readReg (two 0 2 field4) 1 = 0 ∧ readReg (two 0 2 field4) 2 ≠ 0 ∧ readReg (two 1 2 field4) 1 = 1) ∧
    ((two 2 4 field4).degree = 4 ∧ readReg (two 2 4 field4) 1 = 2 ∧ readReg (two 2 4 field4) 2 = 4) := by decide
theorem witness_SquaringGivesThePower : 2 ≤ bitlen 2 := by decide
theorem witness_PotLaws : (1 ≤ 1 ∧ 1 ≤ 24) ∧ (1 ≤ 24 ∧ 24 ≤ 24) := by decide
theorem witness_NonzeroElementsHaveOrderDividing :
    (1 ≤ 1 ∧ 1 ≤ 24 ∧ 1 ≠ 0 ∧ 1 < 2 ^ 1) ∧ (1 ≤ 24 ∧ 24 ≤ 24 ∧ 0xFFFFFF ≠ 0 ∧ 0xFFFFFF < 2 ^ 24) := by decide
theorem witness_PdivWritesTheQuotient :
    readReg (two 6 0 State.reset) 2 = 0 ∧ readReg (two 6 1 State.reset) 2 = 1 ∧
    bitlen (readReg (two 0xF 0x13 State.reset) 1).toNat < bitlen (readReg (two 0xF 0x13 State.reset) 2).toNat ∧
    readReg (two 5 5 State.reset) 1 = readReg (two 5 5 State.reset) 2 ∧
    (readReg (two 0x13 6 State.reset) 1 = 0x13 ∧ readReg (two 0x13 6 State.reset) 2 = 6) := by decide
theorem witness_PremWritesTheRemainder :
    readReg (two 6 0 State.reset) 2 = 0 ∧ readReg (two 6 1 State.reset) 2 = 1 ∧ readReg (two 6 1 State.reset) 2 ≠ 0 ∧
    (FieldRecordOk (two 5 0x13 field4) ∧ (two 5 0x13 field4).fv = true ∧
      (readReg (two 5 0x13 field4) 2).toNat = (two 5 0x13 field4).modulus.toNat) := by decide
theorem witness_InvWritesInverseGcdAndFlag :
    State.reset.fv = false ∧ (two 6 0 field4).fv = true ∧ FieldRecordOk (two 6 0 field4) ∧
    polyrem (readReg (two 0x13 0 field4) 1).toNat (two 0x13 0 field4).modulus.toNat = 0 ∧
    polyrem (readReg (two 6 0 field4) 1).toNat (two 6 0 field4).modulus.toNat ≠ 0 ∧
    readReg (two 1 0 field4) 1 = 1 ∧ readReg (two 6 0 field4) 1 = 6 ∧ readReg field4 1 = 0 ∧ field4.degree = 4 := by decide
theorem witness_InvInvertsOrFlags :
    (two 0x26 0 field4).fv = true ∧ FieldRecordOk (two 0x26 0 field4) ∧
    polyrem (readReg (two 0x26 0 field4) 1).toNat (two 0x26 0 field4).modulus.toNat = 0 ∧
    polyrem (readReg (two 0xFFFFFFFF 0 field4) 1).toNat (two 0xFFFFFFFF 0 field4).modulus.toNat ≠ 0 := by decide
theorem witness_InvLaws :
    (1 ≤ 1 ∧ 1 ≤ 24 ∧ 1 ≠ 0 ∧ 1 < 2 ^ 1) ∧ (1 ≤ 24 ∧ 24 ≤ 24 ∧ 0xFFFFFF < 2 ^ 24) ∧ polyrem 0xFF (irred 4) ≠ 0 := by decide

theorem witness_ErrorsArePrecise : runCommand 0x10312000 State.reset = .next (raise .noField State.reset) ∧
    (raise .noField State.reset).err ≠ .ok ∧
    runCommand 0x10312000 { State.reset with pending := [] } = .next (raise .noField State.reset) := ⟨rfl, by decide, rfl⟩
theorem witness_ErrorsFollowThePriority :
    exec (.pow 3 1 2) (two 6 0xFFFFFFFF State.reset) = .next (raise .noField (two 6 0xFFFFFFFF State.reset)) ∧
    (two 6 0xFFFFFFFF State.reset).fv = false ∧ (readReg (two 6 0xFFFFFFFF State.reset) 2).getLsbD 31 = true ∧
    decode 0x12312001 = .illegal .nonzeroUnusedField ∧
    runCommand 0x12312001 State.reset = .next (raise .illegalCommand State.reset) ∧
    decode 0x12312000 = .cmd (.pow 3 1 2) ∧
    (0x40 ≤ (0x43 : Fin 256).val ∧ (0x43 : Fin 256).val ≤ 0x43 ∧ ¬((0x43 : Fin 256) = 0x40 ∧ 4 = 4)) ∧
    ¬((0x40 : Fin 256) = 0x40 ∧ 2 = 4) :=
  ⟨rfl, rfl, by decide, by decide, rfl, by decide, by decide, by decide⟩
theorem witness_OnlyTheDestinationIsWritten :
    exec (.bitlen 2 1) State.reset = .next (complete 2 0 State.reset) ∧ destination (.bitlen 2 1) ≠ some 1 := ⟨rfl, by decide⟩
theorem witness_GcdWrittenOnlyByInv :
    (∃ t, exec (.inv 2 1) field4 = .next t ∧ field4.fv = true ∧ FieldRecordOk field4) ∧
    (∃ t, exec (.setdeg 4) field4 = .next t ∧ ¬ ∃ rd rs1, Instr.setdeg 4 = .inv rd rs1) ∧
    (∃ t, exec (.inv 2 1) State.reset = .next t ∧ t.err ≠ .ok) ∧
    (∃ t, step { field4 with pending := .memRead 0x54 4 :: [] } = .next t ∧ windowReg 0x54 = some .gcd) ∧
    (∃ t, runCommand 0 field4 = .next t ∧ (¬ ∃ rd rs1, decode 0 = .cmd (.inv rd rs1)) ∧ t.err ≠ .ok) ∧
    (∃ t, step { field4 with pending := [.memWrite 0x3C 4 1] } = .next t) :=
  ⟨⟨_, rfl, rfl, field4_ok.1⟩, ⟨_, rfl, fun ⟨_, _, h⟩ => Instr.noConfusion h⟩, ⟨_, rfl, by decide⟩, ⟨_, rfl, by decide⟩,
    ⟨_, rfl, by decide, by decide⟩, ⟨_, rfl⟩⟩
theorem witness_StatusDescribesTheLastCommand :
    (∃ t, runCommand 0x13210000 field4 = .next t ∧ decode 0x13210000 = .cmd (.inv 2 1)) ∧
    (∃ t, runCommand 0x01000018 State.reset = .next t) ∧
    (∃ t, runCommand 0x14210000 field4 = .next t ∧ decode 0x14210000 = .illegal .unassignedOpcode) ∧
    { field4 with err := .noField, di := false } ≠ { field4 with err := .ok, di := true } ∧
    { { field4 with err := .noField, di := false } with err := .ok, di := false } =
      { { field4 with err := .ok, di := true } with err := .ok, di := false } :=
  ⟨⟨_, rfl, by decide⟩, ⟨_, rfl⟩, ⟨_, rfl, by decide⟩, by decide, rfl⟩
theorem witness_ResultsArePure :
    ∃ s s' t t' : State, s ≠ s' ∧ s.fv = s'.fv ∧ s.degree = s'.degree ∧ s.order = s'.order ∧ s.modulus = s'.modulus ∧
      (∀ r ∈ sources (.add 3 1 2), readReg s r = readReg s' r) ∧ exec (.add 3 1 2) s = .next t ∧
      exec (.add 3 1 2) s' = .next t' ∧ t.err = .ok ∧ destination (.add 3 1 2) = some 3 :=
  ⟨two 6 3 field4, writeReg 5 9 (two 6 3 field4), _, _, by decide, rfl, rfl, rfl, rfl, by decide, rfl, rfl, rfl, rfl⟩
theorem witness_EveryStepKeepsTheInvariant :
    Inv (field4.withFetchWord 32 0x01000018) ∧ ∃ t, step (field4.withFetchWord 32 0x01000018) = .next t :=
  ⟨field4_ok.2.2, _, rfl⟩

/-- Every clause at an offset, the registers at both ends. -/
theorem witness_ReadsReturnTheRegisters :
    ((0x00 : Fin 256).val = 4 * (0 : Reg).val ∧ (0x3C : Fin 256).val = 4 * (15 : Reg).val) ∧
    (0x100 : Word) = (errCode field4.err).zeroExtend 32 ||| (flagWord field4.di <<< 4) ||| (flagWord field4.fv <<< 8) ∧
    (4 : Word).toNat = field4.degree.toNat ∧ (0x10 : Word).toNat = field4.order.toNat ∧
    (0x13 : Word).toNat = field4.modulus.toNat ∧ (0 : Word).toNat = field4.gcd.toNat := by decide
theorem witness_RegisterWritesReplace :
    (0x00 : Fin 256).val = 4 * (0 : Reg).val ∧ (0x3C : Fin 256).val = 4 * (15 : Reg).val := by decide
theorem witness_IllegalTransactionsAreRefused :
    ¬ LegalTransaction (.memRead 0x58 4) ∧ ¬ LegalTransaction (.memRead 0x40 4) ∧ ¬ LegalTransaction (.memRead 0x05 4) ∧
    ¬ LegalTransaction (.memRead 0x04 2) ∧ ¬ LegalTransaction (.memWrite 0x44 4 0) ∧
    LegalTransaction (.memRead 0x54 4) ∧ LegalTransaction (.memRead 0x00 4) ∧ LegalTransaction (.memWrite 0x40 4 0) := by
  simp only [LegalTransaction]; decide
theorem witness_AccessorsReadTheFieldRecord :
    (FieldRecordOk State.reset ∧ State.reset.fv = false) ∧ (FieldRecordOk field4 ∧ field4.fv = true) := by decide
theorem witness_ReadAfterRegisterWrite :
    (0x3C : Fin 256).val = 4 * (15 : Reg).val ∧ (0x00 : Fin 256).val = 4 * (0 : Reg).val ∧ (0 : Reg) ≠ 15 := by decide
theorem witness_ByteLanesAreLittleEndian :
    busRead (0x54 : Fin 256).val 4 field4 = .data 0 ∧ busRead (0x44 : Fin 256).val 4 field4 = .data 0x100 := by decide
theorem witness_RunsCompose :
    Host.Core.run core [HostAction.reset].length { field4 with pending := [.reset] } = .next State.reset := rfl
theorem witness_ProgramsOfAFixedListRunTheList :
    (∀ a ∈ [HostAction.memRead 0 4, .memWrite 0 4 1], a ≠ .reset) ∧ State.reset.pending = [] := by decide
theorem witness_IrredMeetsItsConstraints : (1 ≤ 1 ∧ 1 ≤ 24) ∧ (1 ≤ 24 ∧ 24 ≤ 24) := by decide
theorem witness_EveryLegalTableIsATable :
    (∀ m, 1 ≤ m → m ≤ 24 → bitlen (exampleEntry m) = m + 1 ∧ NoProperFactor (exampleEntry m)) ∧ exampleEntry 4 = 0x13 :=
  ⟨fun _ h1 h2 => exampleEntry_ok h1 h2, rfl⟩

end Sys2Proof.Tests
end

section
/-! Results of commands on two states (spec/00_scope.md R10): a command that starts from the same field record and the same
source operands ends with the same result. Each shared operation is compared once, each command is then read off its form. -/

namespace Sys2Proof.Machine

open Sys2Proof.Gf2

/-- The two states hold the same field record (R22). -/
structure SameField (s s' : State) : Prop where
  fv : s.fv = s'.fv
  degree : s.degree = s'.degree
  order : s.order = s'.order
  modulus : s.modulus = s'.modulus

/-- The results of the command `i` that R10 speaks of are the same in the two end states. -/
structure SameResult (i : Instr) (t t' : State) : Prop extends SameField t t' where
  err : t.err = t'.err
  di : t.di = t'.di
  written : t.err = .ok → ∀ rd, destination i = some rd → readReg t rd = readReg t' rd
  gcd : t.err = .ok → ∀ rd rs1, i = .inv rd rs1 → t.gcd = t'.gcd

/-- Two answers give the command `i` the same result wherever both are next states. -/
def AnswersAgree (i : Instr) (r r' : Result) : Prop :=
  ∀ t t', r = .next t → r' = .next t' → SameResult i t t'

variable {i : Instr} {s s' : State} {k : State → Result}

theorem answersAgree_next {t t' : State} (h : SameResult i t t') : AnswersAgree i (.next t) (.next t') := by
  intro u u' hu hu'
  cases hu
  cases hu'
  exact h

/-! ### The operands -/

theorem natOperand_congr {r : Reg} (h : readReg s r = readReg s' r) : natOperand s r = natOperand s' r :=
  congrArg BitVec.toNat h

theorem natOperands_congr {a b : Reg} (h : ∀ r ∈ [a, b], readReg s r = readReg s' r) :
    natOperand s a = natOperand s' a ∧ natOperand s b = natOperand s' b :=
  ⟨natOperand_congr (h a (by simp)), natOperand_congr (h b (by simp))⟩

theorem SameField.modulusOperand_eq (h : SameField s s') : modulusOperand s = modulusOperand s' :=
  congrArg BitVec.toNat h.modulus

/-! ### The four ways a command ends -/

theorem raise_answersAgree {e : ErrCode} (hf : SameField s s') (he : e ≠ .ok) :
    AnswersAgree i (.next (raise e s)) (.next (raise e s')) :=
  answersAgree_next
    { hf with
      err := rfl
      di := rfl
      written := fun hok => absurd hok he
      gcd := fun hok => absurd hok he }

theorem complete_answersAgree {rd : Reg} {v v' : Nat} (hf : SameField s s') (hd : destination i = some rd)
    (hi : ∀ rd rs1, i ≠ .inv rd rs1) (hv : v = v') :
    AnswersAgree i (.next (complete rd v s)) (.next (complete rd v' s')) := by
  subst hv
  refine answersAgree_next { hf with err := rfl, di := rfl, written := ?_, gcd := fun _ r q h => absurd h (hi r q) }
  intro _ r hr
  obtain rfl : rd = r := Option.some.inj (hd.symm.trans hr)
  simp

theorem completeInv_answersAgree {rd rs1 : Reg} {vg vg' : Nat × Nat} (hf : SameField s s') (hv : vg = vg') :
    AnswersAgree (.inv rd rs1) (.next (completeInv rd vg s)) (.next (completeInv rd vg' s')) := by
  subst hv
  refine answersAgree_next { hf with err := rfl, di := rfl, written := ?_, gcd := fun _ _ _ _ => rfl }
  intro _ r hr
  obtain rfl : rd = r := Option.some.inj hr
  simp [completeInv]

theorem buildField_answersAgree (m : Nat) :
    AnswersAgree (.setdeg m) (.next (succeed false (buildField m s))) (.next (succeed false (buildField m s'))) :=
  answersAgree_next
    { fv := rfl
      degree := rfl
      order := rfl
      modulus := rfl
      err := rfl
      di := rfl
      written := fun _ _ h => nomatch h
      gcd := fun _ _ _ h => nomatch h }

/-! ### The checks -/

theorem ite_answersAgree {c c' : Prop} [Decidable c] [Decidable c'] {r r' q q' : Result} (hc : c ↔ c')
    (hr : AnswersAgree i r r') (hq : AnswersAgree i q q') :
    AnswersAgree i (if c then r else q) (if c' then r' else q') := by
  by_cases h : c
  · rwa [if_pos h, if_pos (hc.1 h)]
  · rwa [if_neg h, if_neg (mt hc.2 h)]

theorem withField_answersAgree (hf : SameField s s') (hk : AnswersAgree i (k s) (k s')) :
    AnswersAgree i (withField k s) (withField k s') :=
  ite_answersAgree (by rw [hf.fv]) hk (raise_answersAgree hf (by decide))

theorem withDivisor_answersAgree {b : Reg} (hf : SameField s s') (hb : natOperand s b = natOperand s' b)
    (hk : AnswersAgree i (k s) (k s')) : AnswersAgree i (withDivisor b k s) (withDivisor b k s') :=
  ite_answersAgree (by rw [hb]) (raise_answersAgree hf (by decide)) hk

/-- R10: the same field record and the same source operands give the same result. -/
theorem exec_answersAgree (i : Instr) (hf : SameField s s') (hs : ∀ r ∈ sources i, readReg s r = readReg s' r) :
    AnswersAgree i (exec i s) (exec i s') := by
  have hm := hf.modulusOperand_eq
  cases i with
  | setdeg imm =>
    refine ite_answersAgree Iff.rfl ?_ (buildField_answersAgree imm)
    exact raise_answersAgree hf (by decide)
  | add rd a b =>
    obtain ⟨ha, hb⟩ := natOperands_congr hs
    simp only [exec, execAdd]
    refine withField_answersAgree hf ?_
    exact complete_answersAgree hf rfl nofun (by rw [ha, hb])
  | mul rd a b =>
    obtain ⟨ha, hb⟩ := natOperands_congr hs
    simp only [exec, execMul]
    refine withField_answersAgree hf ?_
    exact complete_answersAgree hf rfl nofun (by rw [ha, hb, hm])
  | pow rd a b =>
    obtain ⟨ha, -⟩ := natOperands_congr hs
    have he : exponentOperand s b = exponentOperand s' b := congrArg BitVec.toInt (hs b (by simp [sources]))
    simp only [exec, execPow]
    refine withField_answersAgree hf (ite_answersAgree ?_ ?_ ?_)
    · rw [he]
    · exact raise_answersAgree hf (by decide)
    · exact complete_answersAgree hf rfl nofun (by rw [ha, he, hm])
  | inv rd a =>
    have ha := natOperand_congr (hs a (by simp [sources]))
    simp only [exec, execInv]
    refine withField_answersAgree hf ?_
    exact completeInv_answersAgree hf (by rw [ha, hm])
  | bitlen rd a =>
    have ha := natOperand_congr (hs a (by simp [sources]))
    simp only [exec, execBitlen]
    exact complete_answersAgree hf rfl nofun (by rw [ha])
  | clmul rd a b =>
    obtain ⟨ha, hb⟩ := natOperands_congr hs
    simp only [exec, execClmul]
    exact complete_answersAgree hf rfl nofun (by rw [ha, hb])
  | clmulh rd a b =>
    obtain ⟨ha, hb⟩ := natOperands_congr hs
    simp only [exec, execClmulh]
    exact complete_answersAgree hf rfl nofun (by rw [ha, hb])
  | pred rd a b =>
    obtain ⟨ha, hb⟩ := natOperands_congr hs
    simp only [exec, execPred]
    refine withField_answersAgree hf ?_
    exact complete_answersAgree hf rfl nofun (by rw [wideOperand, wideOperand, ha, hb, hm])
  | pdiv rd a b =>
    obtain ⟨ha, hb⟩ := natOperands_congr hs
    simp only [exec, execPdiv]
    refine withDivisor_answersAgree hf hb ?_
    exact complete_answersAgree hf rfl nofun (by rw [ha, hb])
  | prem rd a b =>
    obtain ⟨ha, hb⟩ := natOperands_congr hs
    simp only [exec, execPrem]
    refine withDivisor_answersAgree hf hb ?_
    exact complete_answersAgree hf rfl nofun (by rw [ha, hb])

/-- Settles O42: each command's checks and the value it writes read only the field record and the source operands. -/
theorem resultsArePure : Obligations.ResultsArePure := by
  intro i s s' t t' hfv hdeg hord hmod hs ht ht'
  have h := exec_answersAgree i ⟨hfv, hdeg, hord, hmod⟩ hs t t' ht ht'
  exact ⟨h.err, h.di, h.fv, h.degree, h.order, h.modulus, h.written, h.gcd⟩

end Sys2Proof.Machine
end

section
/-! The invariant of the machine (spec/10_state.md R22, R26, R33): the reset state meets it and every step keeps it. -/

namespace Sys2Proof.Machine

/-! ### The reset state -/

/-- Settles O45: every item of the reset state is its literal value, and the status word of those values is 0. -/
theorem resetValues : Obligations.ResetValues := by
  refine ⟨?_, rfl, rfl, rfl, rfl, rfl, rfl, rfl, rfl⟩
  intro r
  simp [readReg, State.reset]

/-- A block that was just reset has no field and no degenerate inverse, whatever the host's side of the run is. -/
theorem resetBlock_inv (s : State) : Inv (resetBlock s) := by
  have hfield : FieldRecordOk (resetBlock s) := ⟨fun _ => ⟨rfl, rfl, rfl⟩, nofun⟩
  have hstatus : StatusOk (resetBlock s) := nofun
  exact ⟨hfield, hstatus⟩

/-- Settles O44: the reset state is what a reset makes of it. -/
theorem resetMeetsTheInvariant : Obligations.ResetMeetsTheInvariant := resetBlock_inv State.reset

/-! ### A step -/

/-- A command word keeps the invariant, and only a successful SETDEG changes the field record. -/
theorem runCommand_keeps_inv {w : Word} {s t : State} (hi : Inv s) (h : runCommand w s = .next t) :
    Inv t ∧ ((t.fv = s.fv ∧ t.degree = s.degree ∧ t.order = s.order ∧ t.modulus = s.modulus) ∨
      ∃ imm, decode w = .cmd (.setdeg imm) ∧ 1 ≤ imm ∧ imm ≤ 24 ∧ t.degree.toNat = imm) := by
  rcases runCommand_cases h with ⟨i, hd, he⟩ | ⟨_, -, rfl⟩
  · obtain ⟨ht, hsame | ⟨imm, rfl, hbuilt⟩⟩ := exec_keeps_inv hi he
    · exact ⟨ht, .inl hsame⟩
    · exact ⟨ht, .inr ⟨imm, hd, hbuilt⟩⟩
  · have hstatus : StatusOk (raise .illegalCommand s) := nofun
    exact ⟨⟨hi.1, hstatus⟩, .inl ⟨rfl, rfl, rfl, rfl⟩⟩

/-- Settles O43, by the ways a step can serve an action: an answer and a register write touch nothing the invariant speaks
of, a command word keeps it, and a reset establishes it. -/
theorem everyStepKeepsTheInvariant : Obligations.EveryStepKeepsTheInvariant := by
  intro s t hi h
  rcases step_cases h with ⟨-, rfl⟩ | ⟨a, rest, hp, hserved⟩
  · exact ⟨hi, .inl ⟨rfl, rfl, rfl, rfl⟩⟩
  cases hserved with
  | answered r hr ha => exact ⟨hi, .inl ⟨rfl, rfl, rfl, rfl⟩⟩
  | wroteReg off n v r ha hn hw => exact ⟨hi, .inl ⟨rfl, rfl, rfl, rfl⟩⟩
  | ran off n v u ha hn hw hu =>
    subst ha
    obtain ⟨hinv, hsame | ⟨imm, hd, hbuilt⟩⟩ := runCommand_keeps_inv (s := { s with pending := rest }) hi hu
    · exact ⟨hinv, .inl hsame⟩
    · exact ⟨hinv, .inr (.inr ⟨off, n, v, rest, imm, hp, hw, hd, hbuilt⟩)⟩
  | wasReset ha =>
    subst ha
    exact ⟨resetBlock_inv _, .inr (.inl ⟨rest, hp⟩)⟩

end Sys2Proof.Machine
end

section
/-! The table of irreducible polynomials (spec/10_state.md R23 to R25). -/

namespace Sys2Proof.Machine

open Sys2Proof.Gf2

/-- Settles O57: whatever the open table holds, its entries meet R23. -/
theorem irredMeetsItsConstraints : Obligations.IrredMeetsItsConstraints := by
  intro m h1 h2
  obtain ⟨hlen, hirred⟩ := irredOf_ok Config.irredFree h1 h2
  exact ⟨hlen, hirred, irred_lt h1 h2⟩

/-- The polynomials of one bit length without a proper factor, searched for with the model's own test. -/
def irreduciblesOfBitlen (n : Nat) : List Nat :=
  (List.range (2 ^ n)).filter fun v => bitlen v == n && isIrreducible v

theorem mem_irreduciblesOfBitlen {n v : Nat} (hn : n ≠ 0) :
    v ∈ irreduciblesOfBitlen n ↔ bitlen v = n ∧ NoProperFactor v := by
  rw [irreduciblesOfBitlen, List.mem_filter, List.mem_range, Bool.and_eq_true, beq_iff_eq, ← bitlen_le_iff]
  constructor
  · rintro ⟨-, hlen, htest⟩
    have hv : v ≠ 0 := by rw [← bitlen_pos]; omega
    exact ⟨hlen, (isIrreducible_iff hv).1 htest⟩
  · rintro ⟨hlen, hirred⟩
    have hv : v ≠ 0 := by rw [← bitlen_pos]; omega
    exact ⟨hlen.le, hlen, (isIrreducible_iff hv).2 hirred⟩

/-- Settles O58: a polynomial of degree m is a natural below 2^(m + 1), and each of these few is tested. -/
theorem forcedIrredEntries : Obligations.ForcedIrredEntries := by
  have hdeg1 : irreduciblesOfBitlen 2 = [0x2, 0x3] := by decide
  have hdeg2 : irreduciblesOfBitlen 3 = [0x7] := by decide
  have hdeg3 : irreduciblesOfBitlen 4 = [0xB, 0xD] := by decide
  have hdeg4 : irreduciblesOfBitlen 5 = [0x13, 0x19, 0x1F] := by decide
  refine ⟨rfl, rfl, ?_, ?_, ?_, ?_⟩ <;> intro v
  · rw [← mem_irreduciblesOfBitlen (by decide), hdeg2, List.mem_singleton]
  · rw [← mem_irreduciblesOfBitlen (by decide), hdeg1, List.mem_pair]
  · rw [← mem_irreduciblesOfBitlen (by decide), hdeg3, List.mem_pair]
  · simp [← mem_irreduciblesOfBitlen, hdeg4]

/-- A table that meets R23 and R24 is the table built from itself: its entries 2 and 4 are the forced ones, and every other
entry is legal, so it is taken. -/
theorem irredOf_eq_self {table : Nat → Nat}
    (hlegal : ∀ m, 1 ≤ m → m ≤ 24 → bitlen (table m) = m + 1 ∧ NoProperFactor (table m)) (h4 : table 4 = 0x13)
    {m : Nat} (h1 : 1 ≤ m) (h2 : m ≤ 24) : irredOf table m = table m := by
  unfold irredOf
  split
  · obtain ⟨-, -, honly, -⟩ := forcedIrredEntries
    exact ((honly _).1 (hlegal 2 h1 h2)).symm
  · exact h4.symm
  · rename_i hm
    obtain ⟨hlen, hirred⟩ := hlegal m h1 h2
    exact if_pos ((legalEntry_iff _ _).2 ⟨hlen, hirred, fun e => absurd e hm⟩)

/-- Settles O59: every table of the model is legal, and every legal table is one of them. -/
theorem everyLegalTableIsATable : Obligations.EveryLegalTableIsATable := by
  constructor
  · intro free m h1 h2
    obtain ⟨hlen, hirred⟩ := irredOf_ok free h1 h2
    exact ⟨hlen, hirred, fun h4 => h4 ▸ rfl⟩
  · intro table hlegal h4 m h1 h2
    exact irredOf_eq_self hlegal h4 h1 h2

end Sys2Proof.Machine
end

section
/-! The registers that the host can only read (spec/10_state.md R26 to R28): a read answers and a write is refused. -/

namespace Sys2Proof.Machine

/-- A read changes nothing: one response is added (R53, R55). -/
theorem step_memRead (s : State) (off : Fin 256) (n : Nat) (rest : List HostAction) :
    step { s with pending := .memRead off n :: rest } =
      .next { s with pending := rest, responses := s.responses ++ [busRead off.val n s] } := rfl

/-- Above CMD no write is accepted (R52, R55). -/
theorem step_memWrite_refused {off : Fin 256} (h : 0x40 < off.val) (s : State) (n v : Nat) (rest : List HostAction) :
    step { s with pending := .memWrite off n v :: rest } =
      .next { s with pending := rest, responses := s.responses ++ [.busError] } := by
  have hmap := mt (windowReg_wr off).1 (by omega)
  show busWrite off.val n v { s with pending := rest } = _
  unfold busWrite
  split
  · split
    · exact absurd (.inl ⟨_, ‹_›⟩) hmap
    · exact absurd (.inr ‹_›) hmap
    all_goals rfl
  · rfl

/-- Settles O50: each accessor reads its item zero-extended, so R22 of the record is R22 of what is read. -/
theorem accessorsReadTheFieldRecord : Obligations.AccessorsReadTheFieldRecord := by
  intro s rest ⟨hnone, hfield⟩
  have hd : (s.degree.zeroExtend 32).toNat = s.degree.toNat := BitVec.toNat_setWidth_of_le (by decide)
  have hq : (s.order.zeroExtend 32).toNat = s.order.toNat := BitVec.toNat_setWidth_of_le (by decide)
  have hp : (s.modulus.zeroExtend 32).toNat = s.modulus.toNat := BitVec.toNat_setWidth_of_le (by decide)
  refine ⟨s.degree.zeroExtend 32, s.order.zeroExtend 32, s.modulus.zeroExtend 32, ?_, ?_, ?_, ?_, hd, hq, hp, ?_, ?_⟩
  · exact step_memRead s 0x48 4 rest
  · exact step_memRead s 0x4C 4 rest
  · exact step_memRead s 0x50 4 rest
  · rintro off n v (rfl | rfl | rfl)
    all_goals exact step_memWrite_refused (by decide) s n v rest
  · intro hf
    obtain ⟨hd0, hq0, hp0⟩ := hnone hf
    rw [hd0, hq0, hp0]
    exact ⟨rfl, rfl, rfl⟩
  · intro hf
    obtain ⟨h1, h2, horder, hmodulus, -⟩ := hfield hf
    rw [hd, hq, hp]
    exact ⟨h1, h2, horder, hmodulus⟩

end Sys2Proof.Machine
end

section
/-! `GCD` (spec/10_state.md R28): what an INV leaves in it, and that nothing else writes it. -/

namespace Sys2Proof.Machine

open Sys2Proof.Gf2

/-- The second component of `inv_eea` is a greatest common divisor: it divides both, and by Bézout every common divisor
divides it. -/
theorem invEea_isGcd {p : Nat} (hp : p ≠ 0) (a : Nat) :
    (invEea a p).2 ≠ 0 ∧ polyrem a (invEea a p).2 = 0 ∧ polyrem p (invEea a p).2 = 0 ∧
    ∀ f, f ≠ 0 → polyrem a f = 0 → polyrem p f = 0 → polyrem (invEea a p).2 f = 0 := by
  obtain ⟨hbezout, hga, hgp⟩ := invEea_bezout hp a
  have hg := (bitlen_invEea_gcd hp a).1
  refine ⟨hg, (polyrem_eq_zero_iff hg a).2 hga, (polyrem_eq_zero_iff hg p).2 hgp, ?_⟩
  intro f hf hfa hfp
  rw [polyrem_eq_zero_iff hf] at hfa hfp ⊢
  exact (dvd_iff_dvd_of_dvd_sub (hfp.trans hbezout)).2 (dvd_mul_of_dvd_right hfa _)

/-- The gcd fits the 25 bits of `GCD`. -/
theorem completeInv_gcd_toNat (rd : Reg) (a : Nat) (s : State) :
    (completeInv rd (invEea a s.modulus.toNat) s).gcd.toNat = (invEea a s.modulus.toNat).2 := by
  rw [completeInv_gcd, BitVec.toNat_ofNat, Nat.mod_eq_of_lt (invEea_gcd_lt s a)]

/-- The command `i`, from `s` to `t`, was an INV in a field that ended without error and left the gcd in `GCD`. -/
structure InvLeftGcd (i : Instr) (s t : State) (rd rs1 : Reg) : Prop where
  instr : i = .inv rd rs1
  field : s.fv = true
  err : t.err = .ok
  gcd : t.gcd.toNat = (invEea (readReg s rs1).toNat s.modulus.toNat).2

theorem exec_gcd {i : Instr} {s t : State} (h : exec i s = .next t) :
    t.gcd = s.gcd ∨ ∃ rd rs1, InvLeftGcd i s t rd rs1 := by
  cases effect_of_exec h with
  | raised e he => exact .inl rfl
  | wrote rd v hd => exact .inl rfl
  | inverted rd rs1 hi hf => exact .inr ⟨rd, rs1, hi, hf, rfl, completeInv_gcd_toNat rd _ s⟩
  | built m hi h1 h2 => exact .inl rfl

theorem runCommand_gcd {w : Word} {s t : State} (h : runCommand w s = .next t) :
    t.gcd = s.gcd ∨ ∃ i rd rs1, decode w = .cmd i ∧ InvLeftGcd i s t rd rs1 := by
  rcases runCommand_cases h with ⟨i, hd, he⟩ | ⟨_, -, rfl⟩
  · rcases exec_gcd he with hsame | ⟨rd, rs1, hinv⟩
    · exact .inl hsame
    · exact .inr ⟨i, rd, rs1, hd, hinv⟩
  · exact .inl rfl

/-- The three ways a step can leave `GCD`. -/
theorem step_gcd {s t : State} (h : step s = .next t) :
    t.gcd = s.gcd ∨ (∃ rest, s.pending = .reset :: rest ∧ t.gcd = 0) ∨
    ∃ off v rest i rd rs1, s.pending = .memWrite off 4 v :: rest ∧ windowReg off.val = some .cmd ∧
      decode (BitVec.ofNat 32 v) = .cmd i ∧ InvLeftGcd i s t rd rs1 := by
  rcases step_cases h with ⟨-, rfl⟩ | ⟨a, rest, hp, hserved⟩
  · exact .inl rfl
  cases hserved with
  | answered r hr ha => exact .inl rfl
  | wroteReg off n v r ha hn hw => exact .inl rfl
  | ran off n v u ha hn hw hu =>
    subst ha hn
    rcases runCommand_gcd hu with hsame | ⟨i, rd, rs1, hd, hi, hf, he, hg⟩
    · exact .inl hsame
    · exact .inr (.inr ⟨off, v, rest, i, rd, rs1, hp, hw, hd, hi, hf, he, hg⟩)
  | wasReset ha =>
    subst ha
    exact .inr (.inl ⟨rest, hp, rfl⟩)

/-- Settles O40: the one way a command writes `GCD` is an INV that ends without error, and what it writes is a gcd. -/
theorem gcdWrittenOnlyByInv : Obligations.GcdWrittenOnlyByInv := by
  refine ⟨rfl, ?_, ?_, ?_, ?_, ?_⟩
  · intro i s t h
    have hgcd : ∀ rd rs1, i = .inv rd rs1 → s.fv = true →
        t.gcd.toNat = (invEea (readReg s rs1).toNat s.modulus.toNat).2 := by
      rintro rd rs1 rfl hf
      rw [exec_inv hf] at h
      cases h
      exact completeInv_gcd_toNat rd _ s
    refine ⟨hgcd, ?_, ?_⟩
    · intro hother
      rcases exec_gcd h with hsame | ⟨rd, rs1, hinv⟩
      · exact hsame
      · exact absurd hother (not_or.2 ⟨not_not.2 ⟨rd, rs1, hinv.instr⟩, not_not.2 hinv.err⟩)
    · intro rd rs1 hi hf hrec
      rw [hgcd rd rs1 hi hf]
      exact invEea_isGcd (field_facts hf hrec).1 _
  · intro w s t h hother
    rcases runCommand_gcd h with hsame | ⟨i, rd, rs1, hd, hinv⟩
    · exact hsame
    · exact absurd hother (not_or.2 ⟨not_not.2 ⟨rd, rs1, hinv.instr ▸ hd⟩, not_not.2 hinv.err⟩)
  · intro s t h
    rcases step_gcd h with hsame | hreset | ⟨off, v, rest, i, rd, rs1, hp, hw, hd, hi, hf, he, hg⟩
    · exact .inl hsame
    · exact .inr (.inl hreset)
    · exact .inr (.inr ⟨off, v, rest, rd, rs1, hp, hw, hi ▸ hd, hf, he, hg⟩)
  · intro s t off n rest h
    rw [step_memRead] at h
    cases h
    refine ⟨?_, rfl⟩
    rintro hw rfl
    show s.responses ++ [busRead off.val 4 s] = _
    rw [busRead_of hw rfl]
  · intro s rest n v
    exact step_memWrite_refused (by decide) s n v rest

end Sys2Proof.Machine
end

section
/-! `STATUS` (spec/10_state.md R26): its word, and that `ERR` and `DI` describe the most recent command only. -/

namespace Sys2Proof.Machine

open Sys2Proof.Gf2

/-! ### The word -/

theorem errCode_toNat_le (e : ErrCode) : (errCode e).toNat ≤ 5 := by cases e <;> decide

theorem flagWord_shiftLeft_4 (b : Bool) : (flagWord b <<< 4).toNat = 2 ^ 4 * b.toNat := by cases b <;> rfl

theorem flagWord_shiftLeft_8 (b : Bool) : (flagWord b <<< 8).toNat = 2 ^ 8 * b.toNat := by cases b <;> rfl

/-- The three parts of the word have their bits at different places, so `OR` adds them. -/
theorem statusWord_toNat (s : State) :
    (statusWord s).toNat = (errCode s.err).toNat + 2 ^ 4 * s.di.toNat + 2 ^ 8 * s.fv.toNat := by
  have herr : ((errCode s.err).zeroExtend 32).toNat = (errCode s.err).toNat := BitVec.toNat_setWidth_of_le (by decide)
  have hlow := errCode_toNat_le s.err
  have hdi := s.di.toNat_le
  rw [statusWord, BitVec.toNat_or, BitVec.toNat_or, herr, flagWord_shiftLeft_4, flagWord_shiftLeft_8,
    Nat.or_comm (errCode s.err).toNat, ← Nat.two_pow_add_eq_or_of_lt (by omega), Nat.or_comm,
    ← Nat.two_pow_add_eq_or_of_lt (by omega)]
  omega

/-! ### `DI` and `FV` after a command -/

theorem exec_setdeg {imm : Nat} (h1 : 1 ≤ imm) (h2 : imm ≤ 24) (s : State) :
    exec (.setdeg imm) s = .next (succeed false (buildField imm s)) := by
  have hrange : ¬ (imm < 1 ∨ Config.maxDeg < imm) := by simp only [Config.maxDeg]; omega
  exact if_neg hrange

theorem exec_di {i : Instr} {s t : State} (h : exec i s = .next t) :
    t.di = true ↔ ∃ rd rs1, i = .inv rd rs1 ∧ s.fv = true ∧ (invEea (readReg s rs1).toNat s.modulus.toNat).2 ≠ 1 := by
  constructor
  · intro hdi
    cases effect_of_exec h with
    | raised e he => cases hdi
    | wrote rd v hd => cases hdi
    | inverted rd rs1 hi hf => exact ⟨rd, rs1, hi, hf, bne_iff_ne.1 hdi⟩
    | built m hi h1 h2 => cases hdi
  · rintro ⟨rd, rs1, rfl, hf, hg⟩
    rw [exec_inv hf] at h
    cases h
    exact bne_iff_ne.2 hg

theorem exec_fv {i : Instr} {s t : State} (h : exec i s = .next t) :
    t.fv = true ↔ s.fv = true ∨ ∃ imm, i = .setdeg imm ∧ 1 ≤ imm ∧ imm ≤ 24 := by
  constructor
  · intro hfv
    cases effect_of_exec h with
    | raised e he => exact .inl hfv
    | wrote rd v hd => exact .inl hfv
    | inverted rd rs1 hi hf => exact .inl hfv
    | built m hi h1 h2 => exact .inr ⟨m, hi, h1, h2⟩
  · rintro (hf | ⟨imm, rfl, h1, h2⟩)
    · cases effect_of_exec h with
      | built m hi h1 h2 => rfl
      | _ => exact hf
    · rw [exec_setdeg h1 h2] at h
      cases h
      rfl

/-! ### `ERR` after a command -/

/-- The command ended, and it reported `e`. -/
def EndsWith (e : ErrCode) (r : Result) : Prop := ∃ t, r = .next t ∧ t.err = e

theorem complete_endsWith (rd : Reg) (v : Nat) (s : State) : EndsWith .ok (.next (complete rd v s)) := ⟨_, rfl, rfl⟩

theorem ite_endsWith {c c' : Prop} [Decidable c] [Decidable c'] {e e' : ErrCode} {r r' : Result} (hc : c ↔ c')
    (h : EndsWith e r) (h' : EndsWith e' r') : EndsWith (if c then e else e') (if c' then r else r') := by
  by_cases hcase : c
  · rwa [if_pos hcase, if_pos (hc.1 hcase)]
  · rwa [if_neg hcase, if_neg (mt hc.2 hcase)]

theorem withDivisor_endsWith {rs2 : Reg} {k : State → Result} {s : State} (h : EndsWith .ok (k s)) :
    EndsWith (if readReg s rs2 = 0 then .divideByZero else .ok) (withDivisor rs2 k s) :=
  ite_endsWith toNat_eq_zero.symm ⟨_, rfl, rfl⟩ h

/-- Step 3 of R170 comes before the command's own check. -/
theorem withField_endsWith {i : Instr} (hi : needsField i = true) {k : State → Result} {s : State}
    (h : EndsWith (ownError i s) (k s)) : EndsWith (reportedError i s) (withField k s) := by
  cases hf : s.fv with
  | true =>
    rw [withField_of_field hf, reportedError, if_neg (by simp [hf])]
    exact h
  | false =>
    rw [withField_of_none hf, reportedError, if_pos ⟨hi, hf⟩]
    exact ⟨_, rfl, rfl⟩

theorem reportedError_of_fieldless {i : Instr} (hi : needsField i = false) (s : State) :
    reportedError i s = ownError i s := if_neg (by simp [hi])

/-- Every command reports the first error that R170 meets. -/
theorem exec_endsWith (i : Instr) (s : State) : EndsWith (reportedError i s) (exec i s) := by
  cases i with
  | setdeg imm =>
    rw [reportedError_of_fieldless rfl]
    by_cases h : 1 ≤ imm ∧ imm ≤ 24
    · rw [exec_setdeg h.1 h.2, ownError, if_pos h]
      exact ⟨_, rfl, rfl⟩
    · have hout : imm < 1 ∨ Config.maxDeg < imm := by simp only [Config.maxDeg]; omega
      rw [exec, execSetdeg, if_pos hout, ownError, if_neg h]
      exact ⟨_, rfl, rfl⟩
  | add rd rs1 rs2 =>
    simp only [exec, execAdd]
    refine withField_endsWith rfl ?_
    exact complete_endsWith ..
  | mul rd rs1 rs2 =>
    simp only [exec, execMul]
    refine withField_endsWith rfl ?_
    exact complete_endsWith ..
  | pow rd rs1 rs2 =>
    simp only [exec, execPow]
    refine withField_endsWith rfl (ite_endsWith (exponentOperand_neg_iff s rs2).symm ?_ ?_)
    · exact ⟨_, rfl, rfl⟩
    · exact complete_endsWith ..
  | inv rd rs1 =>
    simp only [exec, execInv]
    refine withField_endsWith rfl ?_
    exact ⟨_, rfl, rfl⟩
  | bitlen rd rs1 => exact complete_endsWith ..
  | clmul rd rs1 rs2 => exact complete_endsWith ..
  | clmulh rd rs1 rs2 => exact complete_endsWith ..
  | pred rd rs1 rs2 =>
    simp only [exec, execPred]
    refine withField_endsWith rfl ?_
    exact complete_endsWith ..
  | pdiv rd rs1 rs2 =>
    rw [reportedError_of_fieldless rfl]
    simp only [exec, execPdiv]
    refine withDivisor_endsWith ?_
    exact complete_endsWith ..
  | prem rd rs1 rs2 =>
    rw [reportedError_of_fieldless rfl]
    simp only [exec, execPrem]
    refine withDivisor_endsWith ?_
    exact complete_endsWith ..

theorem exec_err {i : Instr} {s t : State} (h : exec i s = .next t) : t.err = reportedError i s := by
  obtain ⟨u, hu, he⟩ := exec_endsWith i s
  rw [h] at hu
  cases hu
  exact he

/-! ### `ERR` and `DI` before a command -/

/-- No command reads `ERR` or `DI`, and each of its ends writes both. -/
theorem exec_overwrites_status (i : Instr) (s : State) (e : ErrCode) (b : Bool) :
    exec i { s with err := e, di := b } = exec i s := by
  cases i <;> rfl

theorem runCommand_overwrites_status (w : Word) (s : State) (e : ErrCode) (b : Bool) :
    runCommand w { s with err := e, di := b } = runCommand w s := by
  unfold runCommand
  split
  · exact exec_overwrites_status _ s e b
  · rfl

/-! ### The statement -/

/-- Settles O41: `DI`, `FV` and `ERR` of a legal word are those of its command; an illegal word raises its error and leaves
the field alone. -/
theorem statusDescribesTheLastCommand : Obligations.StatusDescribesTheLastCommand := by
  refine ⟨?_, rfl, ?_, ?_, ?_, ?_⟩
  · intro s
    refine ⟨?_, errCode_toNat_le s.err⟩
    rw [statusWord_toNat]
    cases s.di <;> cases s.fv <;> rfl
  · intro w s t h
    rcases runCommand_cases h with ⟨i, hd, he⟩ | ⟨why, hd, rfl⟩
    · simp only [hd, Decoded.cmd.injEq]
      exact ⟨exec_di he, exec_fv he, fun j hj => hj ▸ exec_err he, nofun⟩
    · simp only [hd, reduceCtorEq, false_and, exists_false, or_false]
      exact ⟨⟨nofun, nofun⟩, Iff.rfl, nofun, fun _ _ => rfl⟩
  · intro w s s' t t' hsame ht ht'
    rw [← runCommand_overwrites_status w s .ok false, hsame, runCommand_overwrites_status, ht'] at ht
    cases ht
    rfl
  · intro s rest
    exact step_memRead s 0x44 4 rest
  · intro s rest n v
    exact step_memWrite_refused (by decide) s n v rest

end Sys2Proof.Machine
end

section
/-! The register window under transactions (spec/20_memory.md R50 to R57): addresses, byte lanes, reads, writes of a general
register, and the transactions that are refused. -/

namespace Sys2Proof.Machine

/-- Settles O53: `BASE` is four times a number, so it does not change an offset modulo 4. -/
theorem busAddressAlignment : Obligations.BusAddressAlignment := by
  have hbase : Config.base % 4 = 0 := Nat.mul_mod_right 4 Config.baseWords
  refine ⟨hbase, fun off => ?_⟩
  rw [busAddress]
  omega

/-! ### Two steps of a run -/

theorem run_two {s t u : State} (hs : step s = .next t) (ht : step t = .next u) : Host.Core.run core 2 s = .next u := by
  rw [run_succ 1 hs, run_succ 0 ht]
  rfl

/-! ### Reads -/

theorem step_memRead_data {s : State} {off : Fin 256} {v : Word} (h : busRead off.val 4 s = .data v)
    (rest : List HostAction) :
    step { s with pending := .memRead off 4 :: rest } =
      .next { s with pending := rest, responses := s.responses ++ [.data v] } := by
  rw [step_memRead, h]

/-- A read that is answered with a word is answered with it again: reading looks at no part of the state that a read
changes (R53). -/
theorem run_memRead_twice {s : State} {off : Fin 256} {v : Word} (h : busRead off.val 4 s = .data v)
    (rest : List HostAction) :
    Host.Core.run core 2 { s with pending := .memRead off 4 :: .memRead off 4 :: rest } =
      .next { s with pending := rest, responses := s.responses ++ [.data v, .data v] } := by
  have hagain : busRead off.val 4 { s with responses := s.responses ++ [.data v] } = .data v := h
  refine (run_two (step_memRead_data h _) (step_memRead_data hagain rest)).trans ?_
  simp only [List.append_assoc, List.cons_append, List.nil_append]

/-- A word with the value of a narrower item of the state is that item zero-extended. -/
theorem eq_zeroExtend_of_toNat_eq {n : Nat} (hn : n ≤ 32) {v : Word} {item : BitVec n} (h : v.toNat = item.toNat) :
    v = item.zeroExtend 32 :=
  BitVec.eq_of_toNat_eq (h.trans (BitVec.toNat_setWidth_of_le hn).symm)

/-- Settles O47: each offset maps to its register, whose word is the value named. -/
theorem readsReturnTheRegisters : Obligations.ReadsReturnTheRegisters := by
  intro s rest off v hv
  have hread : busRead off.val 4 s = .data v := by
    rcases hv with ⟨r, hoff, rfl⟩ | ⟨rfl, rfl⟩ | ⟨rfl, hv⟩ | ⟨rfl, hv⟩ | ⟨rfl, hv⟩ | ⟨rfl, hv⟩
    · exact busRead_of (windowReg_x hoff) rfl
    · exact busRead_of (w := .status) rfl rfl
    · rw [eq_zeroExtend_of_toNat_eq (by decide) hv]
      exact busRead_of (w := .degree) rfl rfl
    · rw [eq_zeroExtend_of_toNat_eq (by decide) hv]
      exact busRead_of (w := .order) rfl rfl
    · rw [eq_zeroExtend_of_toNat_eq (by decide) hv]
      exact busRead_of (w := .modulus) rfl rfl
    · rw [eq_zeroExtend_of_toNat_eq (by decide) hv]
      exact busRead_of (w := .gcd) rfl rfl
  exact ⟨step_memRead_data hread rest, run_memRead_twice hread rest⟩

/-! ### Writes of a general register -/

/-- Settles O48: a write at the offset of a register is `writeReg`, answered `Done`. -/
theorem registerWritesReplace : Obligations.RegisterWritesReplace := by
  intro s rest r off v hoff
  exact step_write (s := { s with pending := .memWrite off 4 v.toNat :: rest }) hoff rfl

/-- What any register holds after a write of one. -/
theorem readReg_writeReg (r q : Reg) (v : Word) (s : State) :
    readReg (writeReg r v s) q = if q = r then v else readReg s q := by
  by_cases h : q = r
  · rw [if_pos h, h, readReg_writeReg_same]
  · rw [if_neg h, readReg_writeReg_other h]

/-- Settles O51: the read is of the state that the write left. -/
theorem readAfterRegisterWrite : Obligations.ReadAfterRegisterWrite := by
  intro s rest r q off off' v hoff hoff'
  have hread : busRead off'.val 4 { s with x := s.x.set r v, responses := s.responses ++ [.done] } =
      .data (if q = r then v else readReg s q) :=
    (busRead_of (windowReg_x hoff') rfl).trans (congrArg Response.data (readReg_writeReg r q v s))
  refine (run_two (registerWritesReplace s _ r off v hoff) (step_memRead_data hread rest)).trans ?_
  simp only [List.append_assoc, List.cons_append, List.nil_append]

/-! ### Byte lanes -/

theorem windowWord_of_busRead {off n : Nat} {s : State} {v : Word} (h : busRead off n s = .data v) :
    (windowReg off).bind (windowWord s) = some v := by
  unfold busRead at h
  split at h
  · split at h
    · cases h
      assumption
    · cases h
  · cases h

theorem aligned_of_busRead {off n : Nat} {s : State} {v : Word} (h : busRead off n s = .data v) : off % 4 = 0 := by
  by_contra hoff
  have hword := windowWord_of_busRead h
  have hunmapped : windowReg off = none := if_neg hoff
  rw [hunmapped] at hword
  cases hword

/-- The four bytes of a readable word are its lanes (R57). -/
theorem windowByte_of_busRead {off n : Nat} {s : State} {v : Word} (h : busRead off n s = .data v) {k : Nat} (hk : k < 4) :
    windowByte s (off + k) = some (byteLane v k) := by
  have hoff := aligned_of_busRead h
  have hlane : (off + k) % 4 = k := by omega
  rw [windowByte, hlane, Nat.add_sub_cancel, windowWord_of_busRead h, Option.map_some]

theorem byteLane_toNat (v : Word) (k : Nat) : (byteLane v k).toNat = v.toNat / 2 ^ (8 * k) % 2 ^ 8 := by
  rw [byteLane, BitVec.extractLsb'_toNat, Nat.shiftRight_eq_div_pow]

/-- A word is its four lanes, the lane at the lowest offset weighing least. -/
theorem toNat_eq_byteLanes (v : Word) :
    v.toNat = (byteLane v 0).toNat + 2 ^ 8 * (byteLane v 1).toNat + 2 ^ 16 * (byteLane v 2).toNat +
      2 ^ 24 * (byteLane v 3).toNat := by
  have hv := v.isLt
  simp only [byteLane_toNat]
  omega

/-- Settles O52: the byte at `off + k` is lane k of the word. -/
theorem byteLanesAreLittleEndian : Obligations.ByteLanesAreLittleEndian := by
  intro s off v h
  have hbyte : ∀ k, k < 4 → windowByte s (off.val + k) = some (byteLane v k) := fun _ => windowByte_of_busRead h
  constructor
  · intro k hk
    refine ⟨byteLane v k, hbyte k hk, fun j hj => ?_⟩
    simp [byteLane, hj]
  · exact ⟨byteLane v 0, byteLane v 1, byteLane v 2, byteLane v 3, hbyte 0 (by decide), hbyte 1 (by decide),
      hbyte 2 (by decide), hbyte 3 (by decide), toNat_eq_byteLanes v⟩

/-! ### The transactions that are refused -/

/-- Every register of the window but `CMD` has a word to read (R29, R53). -/
theorem windowWord_eq_none_iff (s : State) (w : WindowReg) : windowWord s w = none ↔ w = .cmd := by
  cases w <;> simp [windowWord]

/-- The offsets at which a read finds no word: those without a register, and that of `CMD` (R52). -/
theorem windowWord_bind_eq_none_iff (off : Fin 256) (s : State) :
    (windowReg off.val).bind (windowWord s) = none ↔ ¬ (off.val % 4 = 0 ∧ off.val ≤ 0x54 ∧ off.val ≠ 0x40) := by
  have hmapped := windowReg_some off
  have hcmd := windowReg_cmd off
  cases hw : windowReg off.val with
  | none =>
    have hunmapped : ¬ (off.val % 4 = 0 ∧ off.val ≤ 0x54) := by simpa [hw] using hmapped
    simp only [Option.bind_none, true_iff]
    exact fun ⟨h4, hle, _⟩ => hunmapped ⟨h4, hle⟩
  | some w =>
    have hin : off.val % 4 = 0 ∧ off.val ≤ 0x54 := by simpa [hw] using hmapped
    rw [hw, Option.some_inj] at hcmd
    rw [Option.bind_some, windowWord_eq_none_iff, hcmd]
    omega

theorem busRead_eq_busError_iff (off : Fin 256) (n : Nat) (s : State) :
    busRead off.val n s = .busError ↔ ¬ LegalTransaction (.memRead off n) := by
  have hnone := windowWord_bind_eq_none_iff off s
  unfold busRead LegalTransaction
  split
  · rename_i hn
    split
    · rename_i v hv
      rw [hv] at hnone
      simpa [hn] using hnone
    · rename_i hv
      simpa [hn] using hnone.1 hv
  · rename_i hn
    simp [hn]

theorem busWrite_of_not_legal {off : Fin 256} {n v : Nat} (h : ¬ LegalTransaction (.memWrite off n v)) (s : State) :
    busWrite off.val n v s = .next (respond .busError s) := by
  unfold busWrite
  split
  · rename_i hn
    have hmap := mt (windowReg_wr off).1 fun hlegal => h ⟨hn, hlegal⟩
    split
    · exact absurd (.inl ⟨_, ‹_›⟩) hmap
    · exact absurd (.inr ‹_›) hmap
    all_goals rfl
  · rfl

theorem runCommand_host {w : Word} {s t : State} (h : runCommand w s = .next t) :
    t.pending = s.pending ∧ t.responses = s.responses := by
  rcases runCommand_cases h with ⟨i, -, he⟩ | ⟨_, -, rfl⟩
  · exact exec_host he
  · exact ⟨rfl, rfl⟩

/-- A legal write is answered `Done`, once the register is written or the command has ended. -/
theorem busWrite_of_legal {off : Fin 256} {n v : Nat} (h : LegalTransaction (.memWrite off n v)) (s : State) :
    ∃ t, busWrite off.val n v s = .next (respond .done t) ∧ t.responses = s.responses := by
  obtain ⟨rfl, hlegal⟩ := h
  rcases (windowReg_wr off).2 hlegal with ⟨r, hw⟩ | hw
  · exact ⟨writeReg r (BitVec.ofNat 32 v) s, by simp only [busWrite, hw, if_true], rfl⟩
  · obtain ⟨t, ht⟩ := runCommand_next (BitVec.ofNat 32 v) s
    exact ⟨t, by simp only [busWrite, hw, ht, thenRespond, if_true], (runCommand_host ht).2⟩

/-- Settles O49, for reads and for writes. -/
theorem illegalTransactionsAreRefused : Obligations.IllegalTransactionsAreRefused := by
  intro a s rest ha
  cases a with
  | reset => exact absurd rfl ha
  | memRead off n =>
    have hrefused := busRead_eq_busError_iff off n s
    rw [step_memRead]
    exact ⟨fun h => by rw [hrefused.2 h], fun h => ⟨_, _, rfl, rfl, fun he => hrefused.1 he h⟩⟩
  | memWrite off n v =>
    have hstep : step { s with pending := .memWrite off n v :: rest } = busWrite off.val n v { s with pending := rest } := rfl
    rw [hstep]
    refine ⟨fun h => busWrite_of_not_legal h _, fun h => ?_⟩
    obtain ⟨t, ht, hresp⟩ := busWrite_of_legal h { s with pending := rest }
    exact ⟨respond .done t, .done, ht, by rw [respond_responses, hresp], nofun⟩

end Sys2Proof.Machine
end

section
/-! A step that delivers a command (spec/20_memory.md R56) and runs put together (R62; spec/70_reset_and_hazards.md R207). -/

namespace Sys2Proof.Machine

/-! ### A command delivered to `CMD` -/

theorem runCommand_of_cmd {w : Word} {i : Instr} (h : decode w = .cmd i) (s : State) : runCommand w s = exec i s := by
  simp only [runCommand, h]

theorem step_deliver {w : Nat} {i : Instr} (hd : decode (BitVec.ofNat 32 w) = .cmd i) (s : State) (rest : List HostAction) :
    ∃ t, exec i { s with pending := rest } = .next t ∧
      step { s with pending := deliver w :: rest } = .next (respond .done t) := by
  obtain ⟨t, ht, -⟩ := exec_effect i { s with pending := rest }
  refine ⟨t, ht, ?_⟩
  show thenRespond .done (runCommand (BitVec.ofNat 32 w) { s with pending := rest }) = _
  rw [runCommand_of_cmd hd, ht]
  rfl

theorem decode_of_decodeTableWord {nbits w : Nat} {i : Instr} (h : decodeTableWord nbits w = some i) :
    decode (BitVec.ofNat 32 (w % 2 ^ nbits)) = .cmd i := by
  unfold decodeTableWord at h
  split at h
  · split at h
    · cases h
      assumption
    · cases h
  · cases h

/-- Settles O7: a table word is delivered as any other word is. -/
theorem stepRunsDecodedCommand : Obligations.StepRunsDecodedCommand := by
  refine ⟨?_, ?_, fun s => step_nil⟩
  · intro s rest w i _ hd
    exact step_deliver hd s rest
  · intro s w i h
    exact step_deliver (decode_of_decodeTableWord h) s s.pending

/-! ### Runs -/

/-- One step serves the first action of the list, and what it does to everything else does not depend on the actions after
it. -/
theorem step_first (a : HostAction) (s : State) :
    ∃ t : State, ∀ rest, step { s with pending := a :: rest } = .next { t with pending := rest } := by
  obtain ⟨t, ht, -⟩ := serve_served a s
  refine ⟨t, fun rest => ?_⟩
  rw [step_cons rfl]
  exact serve_withPending ht rest

/-- Settles O55, by induction on the first list: its first action does the same in both runs. -/
theorem runsCompose : Obligations.RunsCompose := by
  intro first second
  induction first with
  | nil =>
    intro s t h
    cases h
    rfl
  | cons a first ih =>
    intro s t h
    obtain ⟨u, hu⟩ := step_first a s
    rw [List.length_cons, run_succ _ (hu first)] at h
    rw [List.cons_append, List.length_cons, run_succ _ (hu (first ++ second))]
    exact ih u t h

end Sys2Proof.Machine
end

section
/-! The decoder by opcode, and decoding against encoding (spec/30_encoding.md R81, R82, R92). -/

namespace Sys2Proof

/-! ### The opcodes of each format -/

/-- The commands of format R3, each with its opcode (R82, R84). -/
def r3Commands : List (Nat × (Reg → Reg → Reg → Instr)) :=
  [(0x10, .add), (0x11, .mul), (0x12, .pow), (0x21, .clmul), (0x22, .clmulh), (0x23, .pred), (0x24, .pdiv), (0x25, .prem)]

/-- The commands of format R2, each with its opcode (R82, R84). -/
def r2Commands : List (Nat × (Reg → Reg → Instr)) := [(0x13, .inv), (0x20, .bitlen)]

/-- The opcodes of the map (R84, R85). -/
def assignedOpcodes : List Nat := [0x01, 0x10, 0x11, 0x12, 0x13, 0x20, 0x21, 0x22, 0x23, 0x24, 0x25]

theorem opcode_cases (op : Nat) :
    op = 0x01 ∨ (∃ row ∈ r3Commands, op = row.1) ∨ (∃ row ∈ r2Commands, op = row.1) ∨ op ∉ assignedOpcodes := by
  simp only [r3Commands, r2Commands, assignedOpcodes, List.mem_cons, List.not_mem_nil, or_false, exists_eq_or_imp,
    exists_eq_left]
  omega

/-! ### What `decode` does with a word of each opcode -/

section dispatch
variable {w : Word}

theorem decode_of_setdeg (h : (fieldOpcode w).toNat = 0x01) : decode w = decodeI .setdeg w := by
  simp only [decode, h]

theorem decode_of_r3 : ∀ row ∈ r3Commands, (fieldOpcode w).toNat = row.1 → decode w = decodeR3 row.2 w := by
  simp only [r3Commands, List.forall_mem_cons]
  refine ⟨?_, ?_, ?_, ?_, ?_, ?_, ?_, ?_, nofun⟩ <;> intro h <;> simp only [decode, h]

theorem decode_of_r2 : ∀ row ∈ r2Commands, (fieldOpcode w).toNat = row.1 → decode w = decodeR2 row.2 w := by
  simp only [r2Commands, List.forall_mem_cons]
  refine ⟨?_, ?_, nofun⟩ <;> intro h <;> simp only [decode, h]

theorem decode_of_unassigned (h : (fieldOpcode w).toNat ∉ assignedOpcodes) : decode w = .illegal .unassignedOpcode := by
  unfold decode
  split
  case h_12 => rfl
  all_goals exact absurd (by rw [‹(fieldOpcode w).toNat = _›]; decide) h

end dispatch

/-! ### Encoding -/

theorem encode_r3 (rd rs1 rs2 : Reg) : ∀ row ∈ r3Commands,
    (row.2 rd rs1 rs2).WellFormed ∧ encode (row.2 rd rs1 rs2) = packFields row.1 rd rs1 rs2 0 := by
  simp only [r3Commands, List.forall_mem_cons]
  refine ⟨?_, ?_, ?_, ?_, ?_, ?_, ?_, ?_, nofun⟩ <;> exact ⟨trivial, rfl⟩

theorem encode_r2 (rd rs1 : Reg) : ∀ row ∈ r2Commands,
    (row.2 rd rs1).WellFormed ∧ encode (row.2 rd rs1) = packFields row.1 rd rs1 0 0 := by
  simp only [r2Commands, List.forall_mem_cons]
  refine ⟨?_, ?_, nofun⟩ <;> exact ⟨trivial, rfl⟩

/-- Settles O1, command by command. -/
theorem decodeInvertsEncode : Obligations.DecodeInvertsEncode := by
  intro i
  cases i with
  | setdeg imm => exact Laws.RoundTrip.setdeg imm
  | add rd rs1 rs2 => exact Laws.RoundTrip.add rd rs1 rs2
  | mul rd rs1 rs2 => exact Laws.RoundTrip.mul rd rs1 rs2
  | pow rd rs1 rs2 => exact Laws.RoundTrip.pow rd rs1 rs2
  | inv rd rs1 => exact Laws.RoundTrip.inv rd rs1
  | bitlen rd rs1 => exact Laws.RoundTrip.bitlen rd rs1
  | clmul rd rs1 rs2 => exact Laws.RoundTrip.clmul rd rs1 rs2
  | clmulh rd rs1 rs2 => exact Laws.RoundTrip.clmulh rd rs1 rs2
  | pred rd rs1 rs2 => exact Laws.RoundTrip.pred rd rs1 rs2
  | pdiv rd rs1 rs2 => exact Laws.RoundTrip.pdiv rd rs1 rs2
  | prem rd rs1 rs2 => exact Laws.RoundTrip.prem rd rs1 rs2

/-- Settles O2, by the format of the word's opcode: the fields that the format does not use are zero, so the command's word
is the pack of the word's own fields. -/
theorem encodeInvertsDecode : Obligations.EncodeInvertsDecode := by
  intro w i h
  have hw := packFields_fields w
  rcases opcode_cases (fieldOpcode w).toNat with hop | ⟨row, hrow, hop⟩ | ⟨row, hrow, hop⟩ | hop
  · rw [decode_of_setdeg hop, decodeI] at h
    split at h
    · rename_i hzero
      obtain ⟨hrd, hrs1, hrs2⟩ := hzero
      cases h
      rw [hop, hrd, hrs1, hrs2] at hw
      exact ⟨(fieldImm w).isLt, hw⟩
    · cases h
  · rw [decode_of_r3 row hrow hop, decodeR3] at h
    split at h
    · rename_i himm
      cases h
      obtain ⟨hwf, henc⟩ := encode_r3 (fieldRd w) (fieldRs1 w) (fieldRs2 w) row hrow
      rw [hop, himm] at hw
      exact ⟨hwf, henc.trans hw⟩
    · cases h
  · rw [decode_of_r2 row hrow hop, decodeR2] at h
    split at h
    · rename_i hzero
      obtain ⟨hrs2, himm⟩ := hzero
      cases h
      obtain ⟨hwf, henc⟩ := encode_r2 (fieldRd w) (fieldRs1 w) row hrow
      rw [hop, hrs2, himm] at hw
      exact ⟨hwf, henc.trans hw⟩
    · cases h
  · rw [decode_of_unassigned hop] at h
    cases h

/-! ### A packed word under `decode` -/

section pack
variable {op imm : Nat} (hop : op < 256) (himm : imm < 4096) (rd rs1 rs2 : Reg)
include hop himm

theorem decode_pack_setdeg (h : op = 0x01) :
    decode (packFields op rd rs1 rs2 imm) =
      if rd = 0 ∧ rs1 = 0 ∧ rs2 = 0 then .cmd (.setdeg imm) else .illegal .nonzeroUnusedField := by
  simp only [decode_of_setdeg ((fieldOpcode_pack hop himm rd rs1 rs2).trans h), decodeI, fieldRd_pack hop himm,
    fieldRs1_pack hop himm, fieldRs2_pack hop himm, fieldImm_pack hop himm]

theorem decode_pack_r3 {row : Nat × (Reg → Reg → Reg → Instr)} (hrow : row ∈ r3Commands) (h : op = row.1) :
    decode (packFields op rd rs1 rs2 imm) =
      if imm = 0 then .cmd (row.2 rd rs1 rs2) else .illegal .nonzeroUnusedField := by
  simp only [decode_of_r3 row hrow ((fieldOpcode_pack hop himm rd rs1 rs2).trans h), decodeR3, fieldRd_pack hop himm,
    fieldRs1_pack hop himm, fieldRs2_pack hop himm, fieldImm_pack_eq_zero hop himm]

theorem decode_pack_r2 {row : Nat × (Reg → Reg → Instr)} (hrow : row ∈ r2Commands) (h : op = row.1) :
    decode (packFields op rd rs1 rs2 imm) =
      if rs2 = 0 ∧ imm = 0 then .cmd (row.2 rd rs1) else .illegal .nonzeroUnusedField := by
  simp only [decode_of_r2 row hrow ((fieldOpcode_pack hop himm rd rs1 rs2).trans h), decodeR2, fieldRd_pack hop himm,
    fieldRs1_pack hop himm, fieldRs2_pack hop himm, fieldImm_pack_eq_zero hop himm]

end pack

theorem ofNat_reg_eq_zero {r : Nat} (h : r < 16) : (Fin.ofNat 16 r : Reg) = 0 ↔ r = 0 := by
  rw [Fin.ext_iff, Fin.val_ofNat, Nat.mod_eq_of_lt h]
  rfl

/-- Settles O3: the word of the formula is the pack of its digits, and each class of opcodes has its own rule. -/
theorem decodeFollowsPseudocode : Obligations.DecodeFollowsPseudocode := by
  intro op rd rs1 rs2 imm hop hrd hrs1 hrs2 himm w hw
  have hpack : w = packFields op (Fin.ofNat 16 rd) (Fin.ofNat 16 rs1) (Fin.ofNat 16 rs2) imm := by
    rw [hw, packFields_eq]
    simp only [Fin.val_ofNat, Nat.mod_eq_of_lt hrd, Nat.mod_eq_of_lt hrs1, Nat.mod_eq_of_lt hrs2]
  have hregs : Fin.ofNat 16 rd = 0 ∧ Fin.ofNat 16 rs1 = 0 ∧ Fin.ofNat 16 rs2 = 0 ↔ rd = 0 ∧ rs1 = 0 ∧ rs2 = 0 :=
    and_congr (ofNat_reg_eq_zero hrd) (and_congr (ofNat_reg_eq_zero hrs1) (ofNat_reg_eq_zero hrs2))
  subst hpack
  refine ⟨?_, ?_, ?_, ?_, ?_⟩
  · intro h hzero
    exact (decode_pack_setdeg hop himm _ _ _ h).trans (if_pos (hregs.2 hzero))
  · intro h hzero
    exact ⟨_, (decode_pack_setdeg hop himm _ _ _ h).trans (if_neg (mt hregs.1 hzero))⟩
  · intro row hrow h
    rw [decode_pack_r3 hop himm _ _ _ hrow h]
    exact ⟨fun hzero => if_pos hzero, fun hzero => ⟨_, if_neg hzero⟩⟩
  · intro row hrow h
    rw [decode_pack_r2 hop himm _ _ _ hrow h, ← ofNat_reg_eq_zero hrs2]
    exact ⟨fun hzero => if_pos hzero, fun hzero => ⟨_, if_neg hzero⟩⟩
  · intro h
    rw [← fieldOpcode_pack hop himm] at h
    exact ⟨_, decode_of_unassigned h⟩

end Sys2Proof
end

section
/-! The opcode map (spec/30_encoding.md R84 to R86): the words that match a row, and the words that match none. -/

namespace Sys2Proof

/-! ### A word under a mask, field by field -/

theorem fieldOpcode_and (w m : Word) : fieldOpcode (w &&& m) = fieldOpcode w &&& fieldOpcode m := BitVec.extractLsb'_and

theorem fieldRd_and (w m : Word) : fieldRd (w &&& m) = fieldRd w &&& fieldRd m := by
  simp only [fieldRd, BitVec.extractLsb'_and, BitVec.toFin_and]

theorem fieldRs1_and (w m : Word) : fieldRs1 (w &&& m) = fieldRs1 w &&& fieldRs1 m := by
  simp only [fieldRs1, BitVec.extractLsb'_and, BitVec.toFin_and]

theorem fieldRs2_and (w m : Word) : fieldRs2 (w &&& m) = fieldRs2 w &&& fieldRs2 m := by
  simp only [fieldRs2, BitVec.extractLsb'_and, BitVec.toFin_and]

theorem fieldImm_and (w m : Word) : fieldImm (w &&& m) = fieldImm w &&& fieldImm m := BitVec.extractLsb'_and

theorem eq_iff_fields {w v : Word} :
    w = v ↔ fieldOpcode w = fieldOpcode v ∧ fieldRd w = fieldRd v ∧ fieldRs1 w = fieldRs1 v ∧ fieldRs2 w = fieldRs2 v ∧
      fieldImm w = fieldImm v := by
  constructor
  · rintro rfl
    exact ⟨rfl, rfl, rfl, rfl, rfl⟩
  · rintro ⟨hop, hrd, hrs1, hrs2, himm⟩
    rw [← packFields_fields w, ← packFields_fields v, hop, hrd, hrs1, hrs2, himm]

/-- What a mask and an opcode alone say about the fields of a word. -/
theorem and_eq_pack_opcode_iff {op : Nat} (hop : op < 256) (w m : Word) :
    w &&& m = packFields op 0 0 0 0 ↔ (fieldOpcode w &&& fieldOpcode m).toNat = op ∧ fieldRd w &&& fieldRd m = 0 ∧
      fieldRs1 w &&& fieldRs1 m = 0 ∧ fieldRs2 w &&& fieldRs2 m = 0 ∧ fieldImm w &&& fieldImm m = 0 := by
  have himm : (0 : Nat) < 4096 := by decide
  rw [eq_iff_fields, fieldOpcode_and, fieldRd_and, fieldRs1_and, fieldRs2_and, fieldImm_and, ← BitVec.toNat_inj,
    fieldOpcode_pack hop himm, fieldRd_pack hop himm, fieldRs1_pack hop himm, fieldRs2_pack hop himm,
    (fieldImm_pack_eq_zero hop himm 0 0 0).2 rfl]

theorem reg_and_15 : ∀ r : Reg, r &&& 15 = r := by decide

theorem reg_and_0 : ∀ r : Reg, r &&& 0 = 0 := by decide

section masks
variable {op : Nat} (hop : op < 256) (w : Word)
include hop

/-- The mask of format I (R82, R84). -/
theorem and_maskI_eq_iff : w &&& 0xFFFFF000 = packFields op 0 0 0 0 ↔
    (fieldOpcode w).toNat = op ∧ fieldRd w = 0 ∧ fieldRs1 w = 0 ∧ fieldRs2 w = 0 := by
  have hm : fieldOpcode 0xFFFFF000 = BitVec.allOnes 8 ∧ fieldRd 0xFFFFF000 = 15 ∧ fieldRs1 0xFFFFF000 = 15 ∧
      fieldRs2 0xFFFFF000 = 15 ∧ fieldImm 0xFFFFF000 = 0 := by decide
  obtain ⟨hmop, hmrd, hmrs1, hmrs2, hmimm⟩ := hm
  rw [and_eq_pack_opcode_iff hop, hmop, hmrd, hmrs1, hmrs2, hmimm]
  simp only [BitVec.and_allOnes, BitVec.ofNat_eq_ofNat, BitVec.and_zero, reg_and_15, and_true]

/-- The mask of format R3 (R82, R84). -/
theorem and_maskR3_eq_iff : w &&& 0xFF000FFF = packFields op 0 0 0 0 ↔
    (fieldOpcode w).toNat = op ∧ fieldImm w = 0 := by
  have hm : fieldOpcode 0xFF000FFF = BitVec.allOnes 8 ∧ fieldRd 0xFF000FFF = 0 ∧ fieldRs1 0xFF000FFF = 0 ∧
      fieldRs2 0xFF000FFF = 0 ∧ fieldImm 0xFF000FFF = BitVec.allOnes 12 := by decide
  obtain ⟨hmop, hmrd, hmrs1, hmrs2, hmimm⟩ := hm
  rw [and_eq_pack_opcode_iff hop, hmop, hmrd, hmrs1, hmrs2, hmimm]
  simp only [BitVec.and_allOnes, reg_and_0, true_and]

/-- The mask of format R2 (R82, R84). -/
theorem and_maskR2_eq_iff : w &&& 0xFF00FFFF = packFields op 0 0 0 0 ↔
    (fieldOpcode w).toNat = op ∧ fieldRs2 w = 0 ∧ fieldImm w = 0 := by
  have hm : fieldOpcode 0xFF00FFFF = BitVec.allOnes 8 ∧ fieldRd 0xFF00FFFF = 0 ∧ fieldRs1 0xFF00FFFF = 0 ∧
      fieldRs2 0xFF00FFFF = 15 ∧ fieldImm 0xFF00FFFF = BitVec.allOnes 12 := by decide
  obtain ⟨hmop, hmrd, hmrs1, hmrs2, hmimm⟩ := hm
  rw [and_eq_pack_opcode_iff hop, hmop, hmrd, hmrs1, hmrs2, hmimm]
  simp only [BitVec.and_allOnes, reg_and_0, reg_and_15, true_and]

end masks

/-! ### The row of a command -/

/-- The row of the map that a command belongs to. -/
def rowOf : Instr → OpcodeRow
  | .setdeg _ => opcodeTable[0]
  | .add _ _ _ => opcodeTable[1]
  | .mul _ _ _ => opcodeTable[2]
  | .pow _ _ _ => opcodeTable[3]
  | .inv _ _ => opcodeTable[4]
  | .bitlen _ _ => opcodeTable[5]
  | .clmul _ _ _ => opcodeTable[6]
  | .clmulh _ _ _ => opcodeTable[7]
  | .pred _ _ _ => opcodeTable[8]
  | .pdiv _ _ _ => opcodeTable[9]
  | .prem _ _ _ => opcodeTable[10]

theorem rowOf_mem (i : Instr) : rowOf i ∈ opcodeTable := by
  cases i <;> exact List.getElem_mem _

theorem rowOf_mnemonic (i : Instr) : (rowOf i).mnemonic = mnemonic i := by
  cases i <;> rfl

/-- A row is the only one of its mnemonic. -/
theorem eq_rowOf {row : OpcodeRow} (hrow : row ∈ opcodeTable) {i : Instr} (h : mnemonic i = row.mnemonic) :
    row = rowOf i := by
  have hnodup : ∀ a ∈ opcodeTable, ∀ b ∈ opcodeTable, a.mnemonic = b.mnemonic → a = b := by decide
  exact hnodup row hrow _ (rowOf_mem i) (by rw [rowOf_mnemonic, h])

theorem pack_and_maskI {op imm : Nat} (hop : op < 256) (himm : imm < 4096) :
    packFields op 0 0 0 imm &&& 0xFFFFF000 = packFields op 0 0 0 0 :=
  (and_maskI_eq_iff hop _).2 ⟨fieldOpcode_pack hop himm 0 0 0, fieldRd_pack hop himm 0 0 0,
    fieldRs1_pack hop himm 0 0 0, fieldRs2_pack hop himm 0 0 0⟩

theorem pack_and_maskR3 {op : Nat} (hop : op < 256) (rd rs1 rs2 : Reg) :
    packFields op rd rs1 rs2 0 &&& 0xFF000FFF = packFields op 0 0 0 0 :=
  (and_maskR3_eq_iff hop _).2 ⟨fieldOpcode_pack hop (by decide) rd rs1 rs2,
    (fieldImm_pack_eq_zero hop (by decide) rd rs1 rs2).2 rfl⟩

theorem pack_and_maskR2 {op : Nat} (hop : op < 256) (rd rs1 : Reg) :
    packFields op rd rs1 0 0 &&& 0xFF00FFFF = packFields op 0 0 0 0 :=
  (and_maskR2_eq_iff hop _).2 ⟨fieldOpcode_pack hop (by decide) rd rs1 0, fieldRs2_pack hop (by decide) rd rs1 0,
    (fieldImm_pack_eq_zero hop (by decide) rd rs1 0).2 rfl⟩

/-- The word of a command matches the command's row. -/
theorem encode_matches_rowOf {i : Instr} (h : i.WellFormed) : encode i &&& (rowOf i).mask = (rowOf i).value := by
  cases i with
  | setdeg imm => exact pack_and_maskI (op := 0x01) (by decide) h
  | add rd rs1 rs2 => exact pack_and_maskR3 (op := 0x10) (by decide) rd rs1 rs2
  | mul rd rs1 rs2 => exact pack_and_maskR3 (op := 0x11) (by decide) rd rs1 rs2
  | pow rd rs1 rs2 => exact pack_and_maskR3 (op := 0x12) (by decide) rd rs1 rs2
  | inv rd rs1 => exact pack_and_maskR2 (op := 0x13) (by decide) rd rs1
  | bitlen rd rs1 => exact pack_and_maskR2 (op := 0x20) (by decide) rd rs1
  | clmul rd rs1 rs2 => exact pack_and_maskR3 (op := 0x21) (by decide) rd rs1 rs2
  | clmulh rd rs1 rs2 => exact pack_and_maskR3 (op := 0x22) (by decide) rd rs1 rs2
  | pred rd rs1 rs2 => exact pack_and_maskR3 (op := 0x23) (by decide) rd rs1 rs2
  | pdiv rd rs1 rs2 => exact pack_and_maskR3 (op := 0x24) (by decide) rd rs1 rs2
  | prem rd rs1 rs2 => exact pack_and_maskR3 (op := 0x25) (by decide) rd rs1 rs2

/-! ### The command of a word that matches a row -/

section matching
variable {w : Word} {op : Nat} (hlt : op < 256)

theorem decode_of_maskI (h : w &&& 0xFFFFF000 = packFields 0x01 0 0 0 0) :
    decode w = .cmd (.setdeg (fieldImm w).toNat) := by
  obtain ⟨hop, hzero⟩ := (and_maskI_eq_iff (by decide) w).1 h
  rw [decode_of_setdeg hop, decodeI, if_pos hzero]

include hlt

theorem decode_of_maskR3 {c : Reg → Reg → Reg → Instr} (hrow : (op, c) ∈ r3Commands)
    (h : w &&& 0xFF000FFF = packFields op 0 0 0 0) : decode w = .cmd (c (fieldRd w) (fieldRs1 w) (fieldRs2 w)) := by
  obtain ⟨hop, hzero⟩ := (and_maskR3_eq_iff hlt w).1 h
  rw [decode_of_r3 _ hrow hop, decodeR3, if_pos hzero]

theorem decode_of_maskR2 {c : Reg → Reg → Instr} (hrow : (op, c) ∈ r2Commands)
    (h : w &&& 0xFF00FFFF = packFields op 0 0 0 0) : decode w = .cmd (c (fieldRd w) (fieldRs1 w)) := by
  obtain ⟨hop, hzero⟩ := (and_maskR2_eq_iff hlt w).1 h
  rw [decode_of_r2 _ hrow hop, decodeR2, if_pos hzero]

end matching

/-- A word that matches a row decodes to a command of that row. -/
theorem decode_of_matches {w : Word} : ∀ row ∈ opcodeTable, w &&& row.mask = row.value →
    ∃ i, decode w = .cmd i ∧ rowOf i = row := by
  simp only [opcodeTable, List.forall_mem_cons]
  refine ⟨?_, ?_, ?_, ?_, ?_, ?_, ?_, ?_, ?_, ?_, ?_, nofun⟩ <;> intro h
  · exact ⟨_, decode_of_maskI h, rfl⟩
  · exact ⟨_, decode_of_maskR3 (op := 0x10) (c := .add) (by decide) (by simp [r3Commands]) h, rfl⟩
  · exact ⟨_, decode_of_maskR3 (op := 0x11) (c := .mul) (by decide) (by simp [r3Commands]) h, rfl⟩
  · exact ⟨_, decode_of_maskR3 (op := 0x12) (c := .pow) (by decide) (by simp [r3Commands]) h, rfl⟩
  · exact ⟨_, decode_of_maskR2 (op := 0x13) (c := .inv) (by decide) (by simp [r2Commands]) h, rfl⟩
  · exact ⟨_, decode_of_maskR2 (op := 0x20) (c := .bitlen) (by decide) (by simp [r2Commands]) h, rfl⟩
  · exact ⟨_, decode_of_maskR3 (op := 0x21) (c := .clmul) (by decide) (by simp [r3Commands]) h, rfl⟩
  · exact ⟨_, decode_of_maskR3 (op := 0x22) (c := .clmulh) (by decide) (by simp [r3Commands]) h, rfl⟩
  · exact ⟨_, decode_of_maskR3 (op := 0x23) (c := .pred) (by decide) (by simp [r3Commands]) h, rfl⟩
  · exact ⟨_, decode_of_maskR3 (op := 0x24) (c := .pdiv) (by decide) (by simp [r3Commands]) h, rfl⟩
  · exact ⟨_, decode_of_maskR3 (op := 0x25) (c := .prem) (by decide) (by simp [r3Commands]) h, rfl⟩

theorem matches_rowOf_of_decode {w : Word} {i : Instr} (h : decode w = .cmd i) :
    w &&& (rowOf i).mask = (rowOf i).value := by
  obtain ⟨hwf, rfl⟩ := encodeInvertsDecode w i h
  exact encode_matches_rowOf hwf

/-- Settles O4: the row that a word matches is the row of the command it decodes to. -/
theorem opcodeMapDecidesTheCommand : Obligations.OpcodeMapDecidesTheCommand := by
  refine ⟨rfl, fun i => ⟨rowOf i, rowOf_mem i, rowOf_mnemonic i⟩, ?_, ?_⟩
  · intro w row hrow
    constructor
    · intro h
      obtain ⟨i, hd, rfl⟩ := decode_of_matches row hrow h
      exact ⟨i, hd, (rowOf_mnemonic i).symm⟩
    · rintro ⟨i, hd, hm⟩
      rw [eq_rowOf hrow hm]
      exact matches_rowOf_of_decode hd
  · intro w row hrow row' hrow' h h'
    obtain ⟨i, hd, rfl⟩ := decode_of_matches row hrow h
    obtain ⟨j, hd', rfl⟩ := decode_of_matches row' hrow' h'
    rw [hd] at hd'
    cases hd'
    rfl

theorem matches_iff_decodes (w : Word) :
    (∃ row ∈ opcodeTable, w &&& row.mask = row.value) ↔ ∃ i, decode w = .cmd i := by
  constructor
  · rintro ⟨row, hrow, h⟩
    obtain ⟨i, hd, -⟩ := decode_of_matches row hrow h
    exact ⟨i, hd⟩
  · rintro ⟨i, hd⟩
    exact ⟨rowOf i, rowOf_mem i, matches_rowOf_of_decode hd⟩

theorem illegal_of_no_match {w : Word} (h : ∀ row ∈ opcodeTable, w &&& row.mask ≠ row.value) :
    ∃ why, decode w = .illegal why := by
  cases hd : decode w with
  | cmd i => exact absurd (matches_rowOf_of_decode hd) (h _ (rowOf_mem i))
  | illegal why => exact ⟨why, rfl⟩

/-- The opcodes of the rows are those that `decode` knows. -/
theorem opcodeTable_opcodes : opcodeTable.map (fun row => row.value.toNat / 2 ^ 24) = assignedOpcodes := by decide

theorem no_row_iff_unassigned (op : Nat) :
    (∀ row ∈ opcodeTable, row.value.toNat / 2 ^ 24 ≠ op) ↔ op ∉ assignedOpcodes := by
  rw [← opcodeTable_opcodes, List.mem_map]
  push Not
  rfl

/-- The opcodes without a row are the 256 less the eleven of the map (R85). -/
theorem unassigned_count :
    ((List.range 256).filter fun op => opcodeTable.all fun row => row.value.toNat / 2 ^ 24 != op).length = 245 := by
  have hsub : assignedOpcodes.toFinset ⊆ Finset.range 256 := by decide
  have hcard : assignedOpcodes.toFinset.card = 11 := by decide
  have hfree : (fun op => opcodeTable.all fun row => row.value.toNat / 2 ^ 24 != op) =
      fun op => decide (op ∉ assignedOpcodes.toFinset) := by
    funext op
    rw [Bool.eq_iff_iff, decide_eq_true_iff, List.mem_toFinset, ← no_row_iff_unassigned, List.all_eq_true]
    simp only [bne_iff_ne]
  calc _ = (Finset.range 256 \ assignedOpcodes.toFinset).card := by rw [hfree, Finset.sdiff_eq_filter]; rfl
    _ = 245 := by rw [Finset.card_sdiff_of_subset hsub, hcard, Finset.card_range]

end Sys2Proof

namespace Sys2Proof.Machine

/-- The step that delivers a word to `CMD` (R56). -/
theorem step_deliver_eq (w : Word) (s : State) (rest : List HostAction) :
    step { s with pending := deliver w.toNat :: rest } =
      thenRespond .done (runCommand w { s with pending := rest }) := by
  show thenRespond .done (runCommand (BitVec.ofNat 32 w.toNat) { s with pending := rest }) = _
  rw [BitVec.ofNat_toNat, BitVec.setWidth_eq]

theorem runCommand_of_illegal {w : Word} {why : Illegal} (h : decode w = .illegal why) (s : State) :
    runCommand w s = .next (raise .illegalCommand s) := by
  simp only [runCommand, h]

/-- Settles O5: a word without a row does not decode. -/
theorem illegalWordsEndWithIllegalCommand : Obligations.IllegalWordsEndWithIllegalCommand := by
  refine ⟨?_, matches_iff_decodes, ?_, ?_, ?_⟩
  · intro w s rest h
    obtain ⟨why, hd⟩ := illegal_of_no_match h
    refine (step_deliver_eq w s rest).trans ?_
    rw [runCommand_of_illegal hd]
    rfl
  · intro op hop
    rw [no_row_iff_unassigned]
    simp only [assignedOpcodes, List.mem_cons, List.not_mem_nil, or_false]
    omega
  · exact unassigned_count
  · decide

end Sys2Proof.Machine
end

section
/-! The lines of a listing as steps (spec/30_encoding.md R90). -/

namespace Sys2Proof.Machine

theorem registerOffset_x (r : Reg) : (registerOffset (.x r)).val = 4 * r.val := by
  have := r.isLt
  exact Nat.mod_eq_of_lt (by omega)

theorem windowReg_registerOffset (name : WindowReg) : windowReg (registerOffset name).val = some name := by
  cases name with
  | x r => exact windowReg_x (registerOffset_x r)
  | cmd => rfl
  | status => rfl
  | degree => rfl
  | order => rfl
  | modulus => rfl
  | gcd => rfl

/-- Settles O8, line by line. -/
theorem listingLinesRun : Obligations.ListingLinesRun := by
  refine ⟨?_, ?_, ?_, ?_, ?_, windowReg_registerOffset⟩
  · intro i s rest hi
    refine step_deliver ?_ s rest
    rw [BitVec.ofNat_toNat, BitVec.setWidth_eq]
    exact decodeInvertsEncode i hi
  · intro r v s rest
    exact registerWritesReplace s rest r _ v (registerOffset_x r)
  · intro name s rest hname
    obtain ⟨v, hv⟩ := Option.ne_none_iff_exists'.1 (mt (windowWord_eq_none_iff s name).1 hname)
    exact ⟨v, hv, step_memRead_data (busRead_of (windowReg_registerOffset name) hv) rest⟩
  · intro word s rest
    obtain ⟨t, ht⟩ := runCommand_next word { s with pending := rest }
    refine ⟨t, ht, (step_deliver_eq word s rest).trans ?_⟩
    rw [ht]
    rfl
  · intro s rest
    rfl

end Sys2Proof.Machine
end

section
/-! `SETDEG` (spec/40_field_construction.md R100, R101): the field it builds, and the immediates it refuses. -/

namespace Sys2Proof.Machine

theorem encode_setdeg (imm : Nat) : encode (.setdeg imm) = BitVec.ofNat 32 (0x01000000 ||| imm) :=
  packFields_eq 0x01 imm 0 0 0

theorem exec_setdeg_out_of_range {imm : Nat} (h : imm < 1 ∨ 24 < imm) (s : State) :
    exec (.setdeg imm) s = .next (raise .invalidDegree s) := if_pos h

/-- The record of R100 fits its registers. -/
theorem buildField_toNat {m : Nat} (h1 : 1 ≤ m) (h2 : m ≤ 24) (s : State) :
    (buildField m s).degree.toNat = m ∧ (buildField m s).order.toNat = 2 ^ m ∧
      (buildField m s).modulus.toNat = irred m := by
  obtain ⟨hdegree, hok⟩ := buildField_ok h1 h2 s
  obtain ⟨-, -, horder, hmodulus, -⟩ := hok.2 rfl
  rw [hdegree] at horder hmodulus
  exact ⟨hdegree, horder, hmodulus⟩

/-- Under R22 the degree in force determines the record. -/
theorem buildField_degree_in_force {s : State} (hok : FieldRecordOk s) (hfv : s.fv = true) :
    buildField s.degree.toNat s = s := by
  obtain ⟨-, -, horder, hmodulus, -⟩ := hok.2 hfv
  simp only [buildField, ← horder, ← hmodulus, BitVec.ofNat_toNat, BitVec.setWidth_eq, ← hfv]

/-- After a `SETDEG` that built a field, `STATUS` shows `FV` and nothing else, whatever it showed before. -/
theorem statusWord_built (m : Nat) (s : State) : statusWord (succeed false (buildField m s)) = 0x00000100 := by
  apply BitVec.eq_of_toNat_eq
  rw [statusWord_toNat]
  rfl

/-- Settles O18, by the range of the immediate. -/
theorem setdegBuildsTheField : Obligations.SetdegBuildsTheField := by
  intro imm s _
  refine ⟨encode_setdeg imm, fun h => exec_setdeg_out_of_range h s, ?_, ?_, encode_setdeg 4, ?_⟩
  · intro h1 h2
    obtain ⟨hdegree, horder, hmodulus⟩ := buildField_toNat h1 h2 s
    exact ⟨_, _, _, hdegree, horder, hmodulus, exec_setdeg h1 h2 s⟩
  · intro hok hfv
    obtain ⟨h1, h2, -⟩ := hok.2 hfv
    rw [exec_setdeg h1 h2, buildField_degree_in_force hok hfv]
    rfl
  · exact ⟨_, exec_setdeg (by decide) (by decide) s, rfl, rfl, statusWord_built 4 s⟩

end Sys2Proof.Machine
end

section
/-! `bitlen` (spec/41_bitlen_add.md R110), and the commands BITLEN (R111) and ADD (R112, R113). -/

namespace Sys2Proof

/-- The word of a format R3 command: `imm12` is zero (R81, R82). -/
theorem packFields_r3 (op : Nat) (rd rs1 rs2 : Reg) :
    packFields op rd rs1 rs2 0 =
      BitVec.ofNat 32 ((op <<< 24) ||| (rd.val <<< 20) ||| (rs1.val <<< 16) ||| (rs2.val <<< 12)) := by
  rw [packFields_eq, Nat.or_zero]

/-- The word of a format R2 command: `rs2` and `imm12` are zero (R81, R82). -/
theorem packFields_r2 (op : Nat) (rd rs1 : Reg) :
    packFields op rd rs1 0 0 = BitVec.ofNat 32 ((op <<< 24) ||| (rd.val <<< 20) ||| (rs1.val <<< 16)) := by
  rw [packFields_r3, Fin.val_zero, Nat.zero_shiftLeft, Nat.or_zero]

end Sys2Proof

namespace Sys2Proof.Gf2

/-! ### `bitlen` -/

theorem bitlen_eq_succ {k v : Nat} (hlow : 2 ^ k ≤ v) (hhigh : v < 2 ^ (k + 1)) : bitlen v = k + 1 :=
  Nat.le_antisymm (bitlen_le_iff.2 hhigh) (lt_bitlen_iff.2 hlow)

theorem bitlen_two_pow (k : Nat) : bitlen (2 ^ k) = k + 1 :=
  bitlen_eq_succ le_rfl (Nat.pow_lt_pow_succ (by decide))

theorem bitlen_two_pow_sub_one (k : Nat) : bitlen (2 ^ k - 1) = k := by
  cases k with
  | zero => rfl
  | succ k =>
    have hpos : 0 < 2 ^ k := Nat.two_pow_pos k
    have hdouble : 2 ^ (k + 1) = 2 ^ k * 2 := pow_succ 2 k
    exact bitlen_eq_succ (by omega) (by omega)

theorem bitlen_eq_of_highest_bit {v i : Nat} (hv : v ≠ 0) (hi : v.testBit i = true)
    (hmax : ∀ j, v.testBit j = true → j ≤ i) : bitlen v = 1 + i := by
  have hlt : i < bitlen v := lt_bitlen_of_testBit hi
  have hle : bitlen v - 1 ≤ i := hmax _ (testBit_bitlen_pred hv)
  omega

/-- Settles O11: the bit below the bit length is set and none above it is; `bitlen v ≤ k` says `v < 2 ^ k`. -/
theorem bitlenIsHighestSetBit : Obligations.BitlenIsHighestSetBit := by
  refine ⟨bitlen_zero, ?_, ?_, by decide, ?_⟩
  · intro v i hv hi hmax
    exact bitlen_eq_of_highest_bit (Nat.ne_of_gt hv) hi hmax
  · intro v
    exact ⟨lt_two_pow_bitlen v, fun k => bitlen_le_iff.2⟩
  · intro k
    exact ⟨bitlen_two_pow k, bitlen_two_pow_sub_one k⟩

end Sys2Proof.Gf2

namespace Sys2Proof.Machine

open Sys2Proof.Gf2

/-! ### BITLEN -/

theorem encode_bitlen (rd rs1 : Reg) :
    encode (.bitlen rd rs1) = BitVec.ofNat 32 (0x20000000 ||| (rd.val <<< 20) ||| (rs1.val <<< 16)) :=
  packFields_r2 0x20 rd rs1

theorem exec_bitlen (rd rs1 : Reg) (s : State) :
    exec (.bitlen rd rs1) s = .next (complete rd (bitlen (readReg s rs1).toNat) s) := rfl

/-- The bit length of a word, as the word that BITLEN writes, is not narrowed. -/
theorem toNat_ofNat_bitlen (w : Word) : (BitVec.ofNat 32 (bitlen w.toNat)).toNat = bitlen w.toNat :=
  ofNat_toNat_lt (lt_of_le_of_lt (bitlen_word_le w) (by decide))

/-- Settles O19: BITLEN writes one register, with a value that is at most 32. -/
theorem bitlenWritesTheBitLength : Obligations.BitlenWritesTheBitLength := by
  intro rd rs1 s
  have hvalue := toNat_ofNat_bitlen (readReg s rs1)
  refine ⟨encode_bitlen rd rs1, ⟨BitVec.ofNat 32 (bitlen (readReg s rs1).toNat), hvalue, ?_, exec_bitlen rd rs1 s, ?_⟩,
    encode_bitlen 2 1⟩
  · rw [hvalue]
    exact bitlen_word_le _
  · refine ⟨?_, ?_, ?_, ?_, ?_⟩
    all_goals
      intro h
      rw [h]
      rfl

/-! ### ADD -/

theorem encode_add (rd rs1 rs2 : Reg) :
    encode (.add rd rs1 rs2) =
      BitVec.ofNat 32 (0x10000000 ||| (rd.val <<< 20) ||| (rs1.val <<< 16) ||| (rs2.val <<< 12)) :=
  packFields_r3 0x10 rd rs1 rs2

theorem exec_add_without_field {s : State} (h : s.fv = false) (rd rs1 rs2 : Reg) :
    exec (.add rd rs1 rs2) s = .next (raise .noField s) := by
  simp only [exec, execAdd, withField_of_none h]

/-- Under R22 `ORDER` is a power of two, so the XOR of two valid elements is one. -/
theorem xor_lt_order {s : State} (hfv : s.fv = true) {v w : Word} (hok : FieldRecordOk s)
    (hv : v.toNat < s.order.toNat) (hw : w.toNat < s.order.toNat) : (v ^^^ w).toNat < s.order.toNat := by
  obtain ⟨-, -, horder, -⟩ := field_facts hfv hok
  rw [horder] at hv hw ⊢
  rw [BitVec.toNat_xor]
  exact Nat.xor_lt_two_pow hv hw

/-- Settles O20, by the two values of `FV`. -/
theorem addWritesTheXor : Obligations.AddWritesTheXor := by
  intro rd rs1 rs2 s
  refine ⟨encode_add rd rs1 rs2, fun hfv => exec_add_without_field hfv rd rs1 rs2, ?_, encode_add 3 1 2⟩
  intro hfv
  refine ⟨readReg s rs1 ^^^ readReg s rs2, rfl, exec_add hfv rd rs1 rs2, ?_, xor_lt_order hfv, ?_⟩
  · rintro rfl
    exact BitVec.xor_self
  · intro h1 h2
    rw [h1, h2]
    rfl

/-- Of two commands that write one register the second alone shows. -/
theorem succeed_writeReg_twice (b b' : Bool) (r : Reg) (v w : Word) (s : State) :
    succeed b (writeReg r w (succeed b' (writeReg r v s))) = succeed b (writeReg r w s) :=
  calc _ = succeed b (writeReg r w (writeReg r v s)) := rfl
    _ = succeed b (writeReg r w s) := by rw [writeReg_writeReg]

/-- A second ADD reads the sum that the first one wrote, and the operand that it left alone. -/
theorem exec_add_then_add {s : State} (h : s.fv = true) {rd c : Reg} (hc : c ≠ rd) (a b : Reg) :
    ∃ t, exec (.add rd a b) s = .next t ∧
      exec (.add rd rd c) t =
        .next (succeed false (writeReg rd ((readReg s a ^^^ readReg s b) ^^^ readReg s c) s)) := by
  have hfv : (succeed false (writeReg rd (readReg s a ^^^ readReg s b) s)).fv = true := h
  refine ⟨_, exec_add h rd a b, ?_⟩
  rw [exec_add hfv, succeed_writeReg_twice, readReg_succeed, readReg_writeReg_same, readReg_succeed,
    readReg_writeReg_other hc]

theorem exec_add_comm {s : State} (h : s.fv = true) (rd a b : Reg) : exec (.add rd a b) s = exec (.add rd b a) s := by
  rw [exec_add h, exec_add h, BitVec.xor_comm]

/-- Settles O21: the laws of XOR, for the register that ADD writes. -/
theorem addLaws : Obligations.AddLaws := by
  intro rd a b c s hfv
  refine ⟨exec_add_comm hfv rd a b, ⟨_, exec_add hfv rd a b, ?_⟩, ?_⟩
  · rw [readReg_succeed, readReg_writeReg_same]
    refine ⟨?_, ?_, xor_lt_order hfv⟩
    · intro hzero
      rw [hzero]
      exact BitVec.xor_zero
    · rintro rfl
      exact BitVec.xor_self
  · intro ha hc
    obtain ⟨t, ht, hu⟩ := exec_add_then_add hfv hc.symm a b
    obtain ⟨t', ht', hu'⟩ := exec_add_then_add hfv ha.symm b c
    have hfv' : t'.fv = true := (exec_fv ht').2 (.inl hfv)
    rw [← exec_add_comm hfv'] at hu'
    refine ⟨t, _, t', _, ht, hu, ht', hu', ?_⟩
    rw [BitVec.xor_assoc, BitVec.xor_comm (readReg s a)]

end Sys2Proof.Machine
end

section
/-! `clmul`, `polyrem` and `mult` on naturals (spec/42_multiply.md R120 to R122, R127, R129), and the bounds on the passes of
the model's loops (spec/70_reset_and_hazards.md R204). -/

namespace Sys2Proof.Gf2

open Polynomial

/-- Settles O10: each loop has ended by its own condition when its bound runs out. -/
theorem passBoundsNeverCutALoop : Obligations.PassBoundsNeverCutALoop := by
  intro a p extra hp
  refine ⟨clmulLoop_more p a _ extra 0 0 le_rfl, polyremLoop_more hp _ extra a le_rfl,
    polydivmodLoop_more hp _ extra 0 a le_rfl, invEeaLoop_more _ extra a p 1 0 hp le_rfl, fun n => ?_⟩
  exact potSquaringLoop_more p _ extra 1 a n le_rfl

/-! ### `clmul` -/

theorem card_filter_range (f : Nat → Bool) (n : Nat) :
    ((Finset.range n).filter fun i => f i = true).card = ((List.range n).filter f).length := by
  show ((List.range n).filter fun i => decide (f i = true)).length = _
  simp only [Bool.decide_eq_true]

/-- A sum of ones over GF(2) is the parity of their number. -/
theorem sum_range_bool (f : Nat → Bool) (n : Nat) :
    ∑ i ∈ Finset.range n, (if f i then (1 : ZMod 2) else 0) =
      if ((List.range n).filter f).length % 2 = 1 then 1 else 0 := by
  rw [Finset.sum_boole, card_filter_range]
  split
  · rename_i hodd
    exact ZMod.natCast_eq_one_iff_odd.2 (Nat.odd_iff.2 hodd)
  · rename_i hodd
    exact ZMod.natCast_eq_zero_iff_even.2 (Nat.not_odd_iff_even.1 (hodd ∘ Nat.odd_iff.1))

theorem coeff_toPoly_mul (a b k : Nat) :
    (toPoly a * toPoly b).coeff k = ∑ i ∈ Finset.range (k + 1), if a.testBit i && b.testBit (k - i) then 1 else 0 := by
  rw [coeff_mul, Finset.Nat.sum_antidiagonal_eq_sum_range_succ_mk]
  refine Finset.sum_congr rfl fun i _ => ?_
  rw [coeff_toPoly, coeff_toPoly]
  cases a.testBit i <;> simp

/-- A bit is read off the coefficient of its polynomial. -/
theorem testBit_of_coeff {n k : Nat} {c : Prop} [Decidable c] (h : (toPoly n).coeff k = if c then 1 else 0) :
    n.testBit k = decide c := by
  rw [coeff_toPoly] at h
  by_cases hc : c
  · simpa [hc] using h
  · simpa [hc] using h

theorem clmul_testBit (a b k : Nat) : (clmul a b).testBit k =
    decide (((List.range (k + 1)).filter fun i => a.testBit i && b.testBit (k - i)).length % 2 = 1) := by
  apply testBit_of_coeff
  rw [toPoly_clmul, coeff_toPoly_mul, sum_range_bool fun i => a.testBit i && b.testBit (k - i)]

theorem clmul_eq_foldl (a b : Nat) : clmul a b =
    (List.range (bitlen b)).foldl (fun r i => if b.testBit i then r ^^^ (a <<< i) else r) 0 := by
  rw [List.range_eq_range']
  exact clmulLoop_eq_foldl a b (bitlen b) 0 0 (Nat.zero_add _)

/-- Settles O12: the coefficient of x^k in a product of polynomials over GF(2). -/
theorem clmulCoefficients : Obligations.ClmulCoefficients :=
  ⟨clmul_eq_foldl, shiftRight_ne_zero_iff, clmul_testBit⟩

theorem clmul_comm (a b : Nat) : clmul a b = clmul b a :=
  toPoly_injective (by rw [toPoly_clmul, toPoly_clmul, mul_comm])

theorem clmul_assoc (a b c : Nat) : clmul (clmul a b) c = clmul a (clmul b c) :=
  toPoly_injective (by simp only [toPoly_clmul, mul_assoc])

theorem clmul_xor (a b c : Nat) : clmul a (b ^^^ c) = clmul a b ^^^ clmul a c :=
  toPoly_injective (by simp only [toPoly_clmul, toPoly_xor, mul_add])

theorem clmul_two_pow (a k : Nat) : clmul a (2 ^ k) = a <<< k := by
  apply toPoly_injective
  rw [← Nat.one_shiftLeft, toPoly_clmul, toPoly_shiftLeft, toPoly_shiftLeft, toPoly_one, one_mul]

/-- A product is no longer than its factors allow, also where one of them is zero. -/
theorem bitlen_clmul_le {a b k : Nat} (h : bitlen a + bitlen b ≤ k + 1) : bitlen (clmul a b) ≤ k := by
  by_cases ha : a = 0
  · rw [ha, zero_clmul, bitlen_zero]
    exact Nat.zero_le k
  by_cases hb : b = 0
  · rw [hb, clmul_zero, bitlen_zero]
    exact Nat.zero_le k
  have hlen := bitlen_clmul ha hb
  omega

/-- Settles O15: the laws of the polynomial ring, and its degrees as bit lengths. -/
theorem clmulLaws : Obligations.ClmulLaws := by
  refine ⟨clmul_comm, fun a => ⟨clmul_zero a, zero_clmul a, clmul_one a⟩, clmul_two_pow, clmul_xor, clmul_assoc,
    ?_, ?_, fun a b => clmul_lt⟩
  · intro a b ha hb
    have hlen := bitlen_clmul ha hb
    omega
  · intro a b m hm ha hb
    have hlena := bitlen_le_iff.2 ha
    have hlenb := bitlen_le_iff.2 hb
    exact bitlen_clmul_le (by omega)

/-! ### `polyrem` -/

/-- One pass of the loop of R121 changes no remainder. -/
theorem polyrem_reduce {p : Nat} (hp : p ≠ 0) (r k : Nat) : polyrem (r ^^^ (p <<< k)) p = polyrem r p := by
  rw [polyrem_eq_iff hp, toPoly_xor, toPoly_shiftLeft, add_sub_cancel_left]
  exact dvd_mul_right _ _

theorem polyrem_loop {p : Nat} (hp : p ≠ 0) (r : Nat) :
    polyrem r p = if bitlen p ≤ bitlen r then polyrem (r ^^^ (p <<< (bitlen r - bitlen p))) p else r := by
  split
  · exact (polyrem_reduce hp r _).symm
  · rename_i hshort
    exact polyrem_of_lt (Nat.not_le.1 hshort)

/-- The passes that R121 counts, and the ones of the model. -/
theorem polyremLoop_passes {r p : Nat} (hp : p ≠ 0) (h : bitlen p ≤ bitlen r) :
    polyremLoop p (bitlen r - bitlen p + 1) r = polyrem r p := by
  have hpos := bitlen_pos.2 hp
  have henough := polyremLoop_enough hp (bitlen r - bitlen p + 1) r (by omega) (bitlen p - 1)
  rw [polyrem, ← henough]
  congr 1
  omega

theorem polyrem_unique {p q d r : Nat} (hp : p ≠ 0) (h : r = clmul q p ^^^ d) (hd : bitlen d < bitlen p) :
    d = polyrem r p := by
  rw [polyrem_eq_snd hp]
  exact (div_unique hp h hd).2

/-- Settles O13: the remainder of polynomials over GF(2), and the one that `polydivmod` gives. -/
theorem polyremIsTheRemainder : Obligations.PolyremIsTheRemainder := by
  intro r p hp
  refine ⟨polyrem_loop hp r, bitlen_reduce_lt hp, bitlen_polyrem_lt hp r, ⟨(polydivmod r p).1, ?_⟩,
    fun q d => polyrem_unique hp, polyremLoop_passes hp, polyrem_of_lt, polyrem_eq_snd hp r, ?_⟩
  · rw [polyrem_eq_snd hp]
    exact divmod_eq hp r
  · intro s hok hfv
    exact (Machine.field_facts hfv hok).1

/-! ### `mult` -/

@[simp] theorem zero_polyrem (p : Nat) : polyrem 0 p = 0 := rfl

@[simp] theorem mult_zero (a p : Nat) : mult a 0 p = 0 := by rw [mult, clmul_zero, zero_polyrem]

@[simp] theorem mult_one (a p : Nat) : mult a 1 p = polyrem a p := by rw [mult, clmul_one]

theorem mult_comm (a b p : Nat) : mult a b p = mult b a p := by rw [mult, clmul_comm, ← mult]

theorem polyrem_xor {p : Nat} (hp : p ≠ 0) (a b : Nat) : polyrem (a ^^^ b) p = polyrem a p ^^^ polyrem b p := by
  apply toPoly_injective
  simp only [toPoly_polyrem hp, toPoly_xor, add_modByMonic]

theorem mult_xor {p : Nat} (hp : p ≠ 0) (a b c : Nat) : mult a (b ^^^ c) p = mult a b p ^^^ mult a c p := by
  rw [mult, clmul_xor, polyrem_xor hp, ← mult, ← mult]

/-- A factor may be reduced first. -/
theorem polyrem_mult {p : Nat} (hp : p ≠ 0) (a b : Nat) : mult (polyrem a p) b p = mult a b p := by
  have h : toPoly p ∣ toPoly (polyrem a p) - toPoly a := by
    rw [← polyrem_eq_iff hp]
    exact polyrem_of_lt (bitlen_polyrem_lt hp a)
  rw [mult, mult, polyrem_eq_iff hp, toPoly_clmul, toPoly_clmul, ← sub_mul]
  exact h.mul_right _

theorem mult_assoc {p : Nat} (hp : p ≠ 0) (a b c : Nat) : mult (mult a b p) c p = mult a (mult b c p) p :=
  calc mult (mult a b p) c p = mult (clmul a b) c p := polyrem_mult hp _ c
    _ = mult (clmul b c) a p := by rw [mult, mult, clmul_assoc, clmul_comm]
    _ = mult (mult b c p) a p := (polyrem_mult hp _ a).symm
    _ = mult a (mult b c p) p := mult_comm _ a p

theorem mult_lt {p : Nat} (hp : p ≠ 0) (a b : Nat) : mult a b p < 2 ^ (bitlen p - 1) := by
  have hlen : bitlen (mult a b p) < bitlen p := bitlen_polyrem_lt hp _
  rw [← bitlen_le_iff]
  omega

/-- Settles O14: a remainder is shorter than the modulus. -/
theorem multIsProductReduced : Obligations.MultIsProductReduced := by
  intro a b p hlen
  have hp : p ≠ 0 := by
    rw [← bitlen_pos]
    omega
  refine ⟨rfl, mult_lt hp a b, ?_⟩
  intro s hok hfv
  obtain ⟨-, -, -, -, -, -, hrem⟩ := Machine.field_facts hfv hok
  exact (hrem _).1

/-- An irreducible modulus divides no product of two valid elements that are not zero. -/
theorem eq_zero_of_mult_irred {m a b : Nat} (h1 : 1 ≤ m) (h2 : m ≤ 24) (ha : a < 2 ^ m) (hb : b < 2 ^ m)
    (h : mult a b (Machine.irred m) = 0) : a = 0 ∨ b = 0 := by
  by_contra! hne
  obtain ⟨ha0, hb0⟩ := hne
  rw [mult, polyrem_eq_zero_iff (Machine.irred_ne h1 h2), toPoly_clmul] at h
  rcases (Machine.irreducible_irred h1 h2).prime.dvd_or_dvd h with hdvd | hdvd
  · exact Machine.irred_not_dvd h1 h2 ha0 ha hdvd
  · exact Machine.irred_not_dvd h1 h2 hb0 hb hdvd

/-- Settles O27: the laws of the ring modulo p, which is a field for a p of the table. -/
theorem multLawsInAField : Obligations.MultLawsInAField := by
  refine ⟨?_, ?_⟩
  · intro m h1 h2 a b ha hb
    refine ⟨?_, eq_zero_of_mult_irred h1 h2 ha hb⟩
    rw [mult_one]
    exact polyrem_of_lt ((Machine.valid_iff h1 h2 a).2 ha)
  · intro p hp a b c
    exact ⟨mult_comm a b p, mult_assoc hp a b c, mult_xor hp a b c, mult_zero a p, mult_one a p⟩

end Sys2Proof.Gf2
end

section
/-! CLMUL, CLMULH, PRED and MUL (spec/42_multiply.md R123 to R126), and MUL as its two phases (R128). -/

namespace Sys2Proof.Machine

open Sys2Proof.Gf2

/-! ### CLMUL and CLMULH -/

theorem encode_clmul (rd rs1 rs2 : Reg) :
    encode (.clmul rd rs1 rs2) =
      BitVec.ofNat 32 (0x21000000 ||| (rd.val <<< 20) ||| (rs1.val <<< 16) ||| (rs2.val <<< 12)) :=
  packFields_r3 0x21 rd rs1 rs2

theorem encode_clmulh (rd rs1 rs2 : Reg) :
    encode (.clmulh rd rs1 rs2) =
      BitVec.ofNat 32 (0x22000000 ||| (rd.val <<< 20) ||| (rs1.val <<< 16) ||| (rs2.val <<< 12)) :=
  packFields_r3 0x22 rd rs1 rs2

theorem clmul_words_of_zero {v w : Word} (h : v = 0 ∨ w = 0) : clmul v.toNat w.toNat = 0 := by
  rcases h with h | h
  · rw [toNat_eq_zero.2 h, zero_clmul]
  · rw [toNat_eq_zero.2 h, clmul_zero]

theorem clmul_words_of_one {w : Word} (h : w = 1) (v : Word) : clmul v.toNat w.toNat = v.toNat := by
  rw [h]
  exact clmul_one _

/-- The product of two words fits 63 bits, so its high half is not narrowed (R124). -/
theorem clmul_words_lt (v w : Word) : clmul v.toNat w.toNat < 2 ^ 63 := clmul_lt v.isLt w.isLt

theorem exec_clmul (rd rs1 rs2 : Reg) (s : State) :
    exec (.clmul rd rs1 rs2) s =
      .next (complete rd (clmul (readReg s rs1).toNat (readReg s rs2).toNat % 2 ^ 32) s) := rfl

theorem exec_clmulh (rd rs1 rs2 : Reg) (s : State) :
    exec (.clmulh rd rs1 rs2) s =
      .next (complete rd (clmul (readReg s rs1).toNat (readReg s rs2).toNat / 2 ^ 32) s) := by
  have hlt := clmul_words_lt (readReg s rs1) (readReg s rs2)
  have hhigh : highHalf (clmul (readReg s rs1).toNat (readReg s rs2).toNat) =
      clmul (readReg s rs1).toNat (readReg s rs2).toNat / 2 ^ 32 := by
    rw [highHalf, Nat.shiftRight_eq_div_pow]
    omega
  simp only [exec, execClmulh, natOperand, hhigh]

theorem toNat_ofNat_low (n : Nat) : (BitVec.ofNat 32 (n % 2 ^ 32)).toNat = n % 2 ^ 32 :=
  ofNat_toNat_lt (Nat.mod_lt _ (by decide))

theorem toNat_ofNat_high {n : Nat} (h : n < 2 ^ 63) : (BitVec.ofNat 32 (n / 2 ^ 32)).toNat = n / 2 ^ 32 :=
  ofNat_toNat_lt (by omega)

/-- A product that fits a word leaves nothing for CLMULH (R123, R124). -/
theorem exec_clmulh_of_lt {rs1 rs2 : Reg} {s : State}
    (h : clmul (readReg s rs1).toNat (readReg s rs2).toNat < 2 ^ 32) (rd : Reg) :
    exec (.clmulh rd rs1 rs2) s = .next (complete rd 0 s) := by
  rw [exec_clmulh, Nat.div_eq_of_lt h]

/-- Settles O22, with the low half of the product as the word. -/
theorem clmulWritesTheLowHalf : Obligations.ClmulWritesTheLowHalf := by
  intro rd rs1 rs2 s
  have hvalue := toNat_ofNat_low (clmul (readReg s rs1).toNat (readReg s rs2).toNat)
  refine ⟨encode_clmul rd rs1 rs2, ⟨_, hvalue, exec_clmul rd rs1 rs2 s, ?_, ?_, ?_, ?_, ?_⟩, by decide,
    encode_clmul 3 1 2⟩
  · intro h
    rw [clmul_words_of_zero h]
    rfl
  · intro h
    apply BitVec.eq_of_toNat_eq
    rw [hvalue, clmul_words_of_one h]
    exact Nat.mod_eq_of_lt (readReg s rs1).isLt
  · intro hlen
    have hlt := bitlen_le_iff.1 (bitlen_clmul_le hlen)
    refine ⟨?_, exec_clmulh_of_lt hlt rd⟩
    rw [hvalue, Nat.mod_eq_of_lt hlt]
  all_goals
    intro h1 h2
    rw [h1, h2]
    decide

/-- Settles O23, with the high half of the product as the word. -/
theorem clmulhWritesTheHighHalf : Obligations.ClmulhWritesTheHighHalf := by
  intro rd rs1 rs2 s
  have hlt := clmul_words_lt (readReg s rs1) (readReg s rs2)
  have hvalue := toNat_ofNat_high hlt
  refine ⟨encode_clmulh rd rs1 rs2, ⟨_, hvalue, ?_, exec_clmulh rd rs1 rs2 s, ?_, ?_, ?_⟩, by decide,
    encode_clmulh 3 1 2⟩
  · rw [BitVec.getLsbD, hvalue]
    exact Nat.testBit_lt_two_pow (by omega)
  · intro hfits
    rw [Nat.div_eq_of_lt hfits]
    rfl
  all_goals
    intro h1 h2
    rw [h1, h2]
    decide

/-! ### PRED -/

theorem encode_pred (rd rs1 rs2 : Reg) :
    encode (.pred rd rs1 rs2) =
      BitVec.ofNat 32 (0x23000000 ||| (rd.val <<< 20) ||| (rs1.val <<< 16) ||| (rs2.val <<< 12)) :=
  packFields_r3 0x23 rd rs1 rs2

theorem exec_pred_without_field {s : State} (h : s.fv = false) (rd rs1 rs2 : Reg) :
    exec (.pred rd rs1 rs2) s = .next (raise .noField s) := by
  simp only [exec, execPred, withField_of_none h]

/-- Under R22 a valid element is its own remainder. -/
theorem polyrem_modulus_of_bitlen_le {s : State} (hfv : s.fv = true) (hok : FieldRecordOk s) {v : Nat}
    (h : bitlen v ≤ s.degree.toNat) : polyrem v s.modulus.toNat = v := by
  obtain ⟨-, hmodulus, -⟩ := field_facts hfv hok
  exact polyrem_of_lt (by omega)

/-- Settles O24, by the two values of `FV`. -/
theorem predWritesTheReduction : Obligations.PredWritesTheReduction := by
  intro rd rs1 rs2 s
  refine ⟨encode_pred rd rs1 rs2, fun hfv => exec_pred_without_field hfv rd rs1 rs2, ?_, encode_pred 3 1 2⟩
  intro hfv hok
  obtain ⟨-, -, -, -, -, -, hrem⟩ := field_facts hfv hok
  obtain ⟨horder, hword⟩ := hrem ((readReg s rs1).toNat * 2 ^ 32 + (readReg s rs2).toNat)
  have hvalue := ofNat_toNat_lt hword
  refine ⟨_, hvalue, ?_, exec_pred hfv rd rs1 rs2, ?_, ?_, ?_, ?_⟩
  · rw [hvalue]
    exact horder
  · intro h1 h2
    rw [h1, h2]
    rfl
  · intro hlen
    rw [hvalue, polyrem_modulus_of_bitlen_le hfv hok hlen]
  all_goals
    intro hdegree h1 h2
    rw [modulus_of_degree_four hok hfv hdegree, h1, h2]
    decide

/-! ### MUL -/

theorem encode_mul (rd rs1 rs2 : Reg) :
    encode (.mul rd rs1 rs2) =
      BitVec.ofNat 32 (0x11000000 ||| (rd.val <<< 20) ||| (rs1.val <<< 16) ||| (rs2.val <<< 12)) :=
  packFields_r3 0x11 rd rs1 rs2

theorem exec_mul_without_field {s : State} (h : s.fv = false) (rd rs1 rs2 : Reg) :
    exec (.mul rd rs1 rs2) s = .next (raise .noField s) := by
  simp only [exec, execMul, withField_of_none h]

/-- Settles O25, by the two values of `FV`. -/
theorem mulWritesTheFieldProduct : Obligations.MulWritesTheFieldProduct := by
  intro rd rs1 rs2 s
  refine ⟨encode_mul rd rs1 rs2, fun hfv => exec_mul_without_field hfv rd rs1 rs2, ?_, encode_mul 3 1 2⟩
  intro hfv hok
  obtain ⟨-, -, hpow, -, -, -, hrem⟩ := field_facts hfv hok
  obtain ⟨horder, hword⟩ := hrem (clmul (readReg s rs1).toNat (readReg s rs2).toNat)
  rw [← mult] at horder hword
  have hvalue := ofNat_toNat_lt hword
  have hone (h : readReg s rs2 = 1) :
      mult (readReg s rs1).toNat (readReg s rs2).toNat s.modulus.toNat = polyrem (readReg s rs1).toNat s.modulus.toNat := by
    rw [mult, clmul_words_of_one h]
  refine ⟨_, hvalue, ?_, exec_mul hfv rd rs1 rs2, ?_, fun h => hvalue.trans (hone h), ?_, ?_, ?_⟩
  · rw [hvalue]
    exact horder
  · intro h
    rw [mult, clmul_words_of_zero h]
    rfl
  · intro h hvalid
    apply BitVec.eq_of_toNat_eq
    rw [hvalue, hone h]
    rw [hpow, ← bitlen_le_iff] at hvalid
    exact polyrem_modulus_of_bitlen_le hfv hok hvalid
  all_goals
    intro hdegree h1 h2
    rw [modulus_of_degree_four hok hfv hdegree, h1, h2]
    decide

/-! ### MUL as its two phases -/

/-- CLMULH and CLMUL, in this order, leave the product of two words in two registers (R124, R128). -/
theorem exec_clmulh_then_clmul {hi lo rs1 rs2 : Reg} (hlo : hi ≠ lo) (h1 : hi ≠ rs1) (h2 : hi ≠ rs2) (s : State) :
    ∃ t1 t2, exec (.clmulh hi rs1 rs2) s = .next t1 ∧ exec (.clmul lo rs1 rs2) t1 = .next t2 ∧
      t2.fv = s.fv ∧ t2.modulus = s.modulus ∧
      (readReg t2 hi).toNat * 2 ^ 32 + (readReg t2 lo).toNat = clmul (readReg s rs1).toNat (readReg s rs2).toNat := by
  refine ⟨_, _, exec_clmulh hi rs1 rs2 s, exec_clmul lo rs1 rs2 _, rfl, rfl, ?_⟩
  rw [readReg_complete_other hlo, readReg_complete_same, readReg_complete_same, readReg_complete_other h1.symm,
    readReg_complete_other h2.symm, toNat_ofNat_low, toNat_ofNat_high (clmul_words_lt _ _)]
  exact Nat.div_add_mod' _ _

/-- Settles O26: PRED reduces the product that the two halves hold. -/
theorem mulIsItsTwoPhases : Obligations.MulIsItsTwoPhases := by
  refine ⟨?_, ?_⟩
  · intro rd hi lo rs1 rs2 s hfv hlo h1 h2
    obtain ⟨t1, t2, ht1, ht2, hfv2, hmodulus, hproduct⟩ := exec_clmulh_then_clmul hlo h1 h2 s
    refine ⟨t1, t2, _, _, ht1, ht2, exec_pred (hfv2.trans hfv) rd hi lo, exec_mul hfv rd rs1 rs2, rfl, rfl, ?_⟩
    rw [hproduct, hmodulus, readReg_complete_same, readReg_complete_same, mult]
  · intro a b p
    rw [halves (clmul_words_lt a b), mult]

end Sys2Proof.Machine
end

section
/-! `pot` on naturals: its laws, squaring, and the order of an element that is not zero (spec/43_power.md R140, R142, R143;
spec/93_implementation_defined.md K1g). -/

namespace Sys2Proof.Gf2

open Polynomial

@[simp] theorem pot_zero (a p : Nat) : pot a 0 p = 1 := rfl

theorem pot_succ (a n p : Nat) : pot a (n + 1) p = mult (pot a n p) a p := rfl

/-- The chain starts from 1, so the first power is reduced (R140). -/
@[simp] theorem pot_one (a p : Nat) : pot a 1 p = polyrem a p := by rw [pot_succ, pot_zero, mult_comm, mult_one]

theorem zero_pot {n : Nat} (h : n ≠ 0) (p : Nat) : pot 0 n p = 0 := by
  obtain ⟨k, rfl⟩ := Nat.exists_eq_succ_of_ne_zero h
  rw [pot_succ, mult_zero]

/-! ### The laws modulo a polynomial of positive degree -/

section modulus
variable {p : Nat} (hp : 2 ≤ bitlen p)
include hp

theorem ne_zero_of_two_le_bitlen : p ≠ 0 := by
  rw [← bitlen_pos]
  omega

theorem one_polyrem : polyrem 1 p = 1 := polyrem_of_lt hp

theorem polyrem_pot (a n : Nat) : polyrem (pot a n p) p = pot a n p := polyrem_of_lt (Machine.bitlen_pot_lt hp a n)

theorem pot_lt (a n : Nat) : pot a n p < 2 ^ (bitlen p - 1) := by
  have hlen := Machine.bitlen_pot_lt hp a n
  rw [← bitlen_le_iff]
  omega

theorem one_pot (n : Nat) : pot 1 n p = 1 := by
  induction n with
  | zero => rfl
  | succ n ih => rw [pot_succ, ih, mult_one, one_polyrem hp]

theorem pot_two (a : Nat) : pot a 2 p = mult a a p := by
  rw [pot_succ, pot_one, polyrem_mult (ne_zero_of_two_le_bitlen hp)]

theorem pot_add (a i j : Nat) : pot a (i + j) p = mult (pot a i p) (pot a j p) p := by
  induction j with
  | zero => rw [Nat.add_zero, pot_zero, mult_one, polyrem_pot hp]
  | succ j ih => rw [← Nat.add_assoc, pot_succ, pot_succ, ih, mult_assoc (ne_zero_of_two_le_bitlen hp)]

theorem pot_mul (a i j : Nat) : pot a (i * j) p = pot (pot a i p) j p := by
  induction j with
  | zero => rfl
  | succ j ih => rw [Nat.mul_succ, pot_add hp, ih, ← pot_succ]

/-- The base may be reduced first. -/
theorem pot_polyrem (a n : Nat) : pot (polyrem a p) n p = pot a n p := by
  induction n with
  | zero => rfl
  | succ n ih => rw [pot_succ, pot_succ, ih, mult_comm, polyrem_mult (ne_zero_of_two_le_bitlen hp), mult_comm]

/-- A natural shorter than the modulus is the power that it is congruent to. -/
theorem eq_pot_of_dvd {v a n : Nat} (hlen : bitlen v < bitlen p) (h : toPoly p ∣ toPoly v - toPoly a ^ n) :
    v = pot a n p := by
  apply toPoly_injective
  rw [Machine.toPoly_pot hp]
  exact Machine.eq_modByMonic (ne_zero_of_two_le_bitlen hp) hlen h

/-- Squaring gives the value of the naive chain (R143). -/
theorem potSquaring_eq_pot (a n : Nat) : potSquaring a n p = pot a n p := by
  have hp0 := ne_zero_of_two_le_bitlen hp
  have hlen : bitlen (potSquaring a n p) < bitlen p := Machine.bitlen_potSquaringLoop hp0 (bitlen n) 1 a n hp
  have hdvd := Machine.toPoly_potSquaringLoop hp0 (bitlen n) 1 a n le_rfl
  rw [toPoly_one, one_mul] at hdvd
  exact eq_pot_of_dvd hp hlen hdvd

end modulus

/-- Settles O29: both are the power modulo p. -/
theorem squaringGivesThePower : Obligations.SquaringGivesThePower :=
  fun a n _ hp => potSquaring_eq_pot hp a n

/-! ### The fields of the table -/

theorem two_le_bitlen_irred {m : Nat} (h1 : 1 ≤ m) (h2 : m ≤ 24) : 2 ≤ bitlen (Machine.irred m) := by
  rw [Machine.bitlen_irred h1 h2]
  omega

/-- Settles O30: the laws hold modulo every polynomial of positive degree. -/
theorem potLaws : Obligations.PotLaws := by
  intro m h1 h2 a i j n
  have hp := two_le_bitlen_irred h1 h2
  refine ⟨pot_zero a _, pot_two hp a, pot_add hp a i j, pot_mul hp a i j, ?_, fun _ => (pot_polyrem hp a n).symm⟩
  have hlt := pot_lt hp a n
  rwa [Machine.bitlen_irred h1 h2] at hlt

section field
variable {m a : Nat} (h1 : 1 ≤ m) (h2 : m ≤ 24) (ha : a < 2 ^ m)
include h1 h2 ha

/-- A valid element to the power `ORDER` is itself. -/
theorem pot_order : pot a (2 ^ m) (Machine.irred m) = a := by
  have hdegree : (toPoly (Machine.irred m)).natDegree = m := by
    rw [natDegree_toPoly (Machine.irred_ne h1 h2), Machine.bitlen_irred h1 h2, Nat.add_sub_cancel]
  have hfixed := Machine.dvd_pow_two_pow_sub (Machine.irreducible_irred h1 h2) (toPoly a)
  rw [hdegree, dvd_sub_comm] at hfixed
  exact (eq_pot_of_dvd (two_le_bitlen_irred h1 h2) ((Machine.valid_iff h1 h2 a).2 ha) hfixed).symm

theorem exists_mult_eq_one (h0 : a ≠ 0) : ∃ b, mult a b (Machine.irred m) = 1 := by
  have hrem : polyrem a (Machine.irred m) ≠ 0 := by
    rwa [polyrem_of_lt ((Machine.valid_iff h1 h2 a).2 ha)]
  obtain ⟨-, -, hinv⟩ := Machine.invEea_of_not_dvd h1 h2 hrem
  exact ⟨_, hinv⟩

/-- The inverse of a takes one factor from `a ^ ORDER = a`. -/
theorem pot_order_sub_one (h0 : a ≠ 0) : pot a (2 ^ m - 1) (Machine.irred m) = 1 := by
  set p := Machine.irred m
  have hp : 2 ≤ bitlen p := two_le_bitlen_irred h1 h2
  obtain ⟨b, hinv⟩ : ∃ b, mult a b p = 1 := exists_mult_eq_one h1 h2 ha h0
  have hstep : mult (pot a (2 ^ m - 1) p) a p = a := by
    rw [← pot_succ, Nat.sub_add_cancel Nat.one_le_two_pow, pot_order h1 h2 ha]
  calc pot a (2 ^ m - 1) p
      = mult (pot a (2 ^ m - 1) p) 1 p := by rw [mult_one, polyrem_pot hp]
    _ = mult (mult (pot a (2 ^ m - 1) p) a p) b p := by rw [mult_assoc (Machine.irred_ne h1 h2), hinv]
    _ = 1 := by rw [hstep, hinv]

end field

/-- Settles O31: in a field of `ORDER` elements `a ^ ORDER = a`, and a that is not 0 has an inverse. -/
theorem nonzeroElementsHaveOrderDividing : Obligations.NonzeroElementsHaveOrderDividing :=
  fun _ h1 h2 _ h0 ha => pot_order_sub_one h1 h2 ha h0

end Sys2Proof.Gf2
end

section
/-! POW (spec/43_power.md R141). -/

namespace Sys2Proof.Machine

open Sys2Proof.Gf2

theorem encode_pow (rd rs1 rs2 : Reg) :
    encode (.pow rd rs1 rs2) =
      BitVec.ofNat 32 (0x12000000 ||| (rd.val <<< 20) ||| (rs1.val <<< 16) ||| (rs2.val <<< 12)) :=
  packFields_r3 0x12 rd rs1 rs2

theorem exec_pow_without_field {s : State} (h : s.fv = false) (rd rs1 rs2 : Reg) :
    exec (.pow rd rs1 rs2) s = .next (raise .noField s) := by
  simp only [exec, execPow, withField_of_none h]

theorem exec_pow_negative {s : State} (h : s.fv = true) {rs2 : Reg} (hn : (readReg s rs2).toInt < 0) (rd rs1 : Reg) :
    exec (.pow rd rs1 rs2) s = .next (raise .negativeExponent s) := by
  have hneg : exponentOperand s rs2 < 0 := hn
  simp only [exec, execPow, withField_of_field h, if_pos hneg]

/-- Under R22 the value that squaring writes is the one of R140. -/
theorem exec_pow_pot {s : State} (hfv : s.fv = true) (hok : FieldRecordOk s) {rs2 : Reg}
    (hn : 0 ≤ (readReg s rs2).toInt) (rd rs1 : Reg) :
    exec (.pow rd rs1 rs2) s =
      .next (complete rd (pot (readReg s rs1).toNat (readReg s rs2).toNat s.modulus.toNat) s) := by
  obtain ⟨-, hmodulus, -, hdegree, -⟩ := field_facts hfv hok
  have hsign : (readReg s rs2).getLsbD 31 = false := by
    rw [← Bool.not_eq_true, ← exponentOperand_neg_iff]
    exact Int.not_lt.2 hn
  rw [exec_pow hfv rd rs1 rs2 hsign, potSquaring_eq_pot (by omega)]

/-- Settles O28, by the value of `FV` and the sign of the exponent. -/
theorem powWritesThePower : Obligations.PowWritesThePower := by
  intro rd rs1 rs2 s
  refine ⟨encode_pow rd rs1 rs2, fun hfv => exec_pow_without_field hfv rd rs1 rs2,
    fun hfv hn => exec_pow_negative hfv hn rd rs1, exponentOperand_neg_iff s rs2, ?_, encode_pow 3 1 2⟩
  intro hfv hok hn
  obtain ⟨-, hmodulus, horder, hdegree, hmax, -⟩ := field_facts hfv hok
  have hp : 2 ≤ bitlen s.modulus.toNat := by omega
  have hlt := pot_lt hp (readReg s rs1).toNat (readReg s rs2).toNat
  rw [hmodulus, Nat.add_sub_cancel] at hlt
  have hword : 2 ^ s.degree.toNat < 2 ^ 32 := Nat.pow_lt_pow_right (by decide) (by omega)
  have hvalue := ofNat_toNat_lt (hlt.trans hword)
  refine ⟨_, hvalue, ?_, exec_pow_pot hfv hok hn rd rs1, ?_, ?_, ?_, ?_, ?_, ?_⟩
  · rw [hvalue, horder]
    exact hlt
  · intro hexp
    rw [hexp]
    rfl
  · intro hexp
    rw [hvalue, hexp]
    exact pot_one _ _
  · intro hexp
    rw [hvalue, hexp]
    exact pot_two hp _
  · intro hbase hexp
    rw [toNat_eq_zero.2 hbase, zero_pot (mt toNat_eq_zero.1 hexp)]
    rfl
  · intro hbase
    rw [hbase]
    exact congrArg (BitVec.ofNat 32) (one_pot hp _)
  · intro h4 hbase hexp
    rw [modulus_of_degree_four hok hfv h4, hbase, hexp]
    decide

end Sys2Proof.Machine
end

section
/-! `polydivmod` and `inv_eea` on naturals (spec/44_division_inverse.md R150, R153, R155), and inversion in the fields of the
table (R157). -/

namespace Sys2Proof.Gf2

/-! ### `polydivmod` -/

/-- The size of a quotient, also where it is 0. -/
theorem bitlen_polydivmod_fst_le {p : Nat} (hp : p ≠ 0) (n : Nat) :
    bitlen (polydivmod n p).1 ≤ bitlen n + 1 - bitlen p := by
  by_cases hle : bitlen p ≤ bitlen n
  · have hsize := bitlen_polydivmod_fst hp hle
    omega
  · rw [polydivmod_of_lt (Nat.not_le.1 hle), bitlen_zero]
    exact Nat.zero_le _

theorem eq_polydivmod {p c d n : Nat} (hp : p ≠ 0) (h : n = clmul c p ^^^ d) (hd : bitlen d < bitlen p) :
    (c, d) = polydivmod n p := by
  obtain ⟨hc, hr⟩ := div_unique hp h hd
  exact Prod.ext hc hr

/-- One pass of the loop of R150: the quotient of the shortened value has no bit where the pass sets one, so `OR` is `XOR`
and the pair that is put together is the one quotient and remainder. -/
theorem polydivmod_reduce {n p : Nat} (hp : p ≠ 0) (h : bitlen p ≤ bitlen n) :
    polydivmod n p = ((1 <<< (bitlen n - bitlen p)) ||| (polydivmod (n ^^^ (p <<< (bitlen n - bitlen p))) p).1,
      (polydivmod (n ^^^ (p <<< (bitlen n - bitlen p))) p).2) := by
  have hshorter := bitlen_reduce_lt hp h
  set k := bitlen n - bitlen p with hk
  have hdiv := divmod_eq hp (n ^^^ (p <<< k))
  have hlow := bitlen_polydivmod_fst_le hp (n ^^^ (p <<< k))
  have hrem := (toPoly_polydivmod hp (n ^^^ (p <<< k))).2
  rw [or_eq_xor_of_lt (bitlen_le_iff.1 (show bitlen (polydivmod (n ^^^ (p <<< k)) p).1 ≤ k by omega))]
  refine (eq_polydivmod hp ?_ hrem).symm
  rw [clmul_comm, clmul_xor, Nat.one_shiftLeft, clmul_two_pow, Nat.xor_assoc, clmul_comm p, ← hdiv, Nat.xor_comm,
    Nat.xor_assoc, Nat.xor_self, Nat.xor_zero]

/-- The passes that R150 counts, and the ones of the model. -/
theorem polydivmodLoop_passes {n p : Nat} (hp : p ≠ 0) (h : bitlen p ≤ bitlen n) :
    polydivmodLoop p (bitlen n - bitlen p + 1) 0 n = polydivmod n p := by
  have hpos := bitlen_pos.2 hp
  have henough := polydivmodLoop_enough hp (bitlen n - bitlen p + 1) 0 n (by omega) (bitlen p - 1)
  rw [polydivmod, ← henough]
  congr 1
  omega

/-- Settles O16: the division of polynomials over GF(2). -/
theorem polydivmodIsTheDivision : Obligations.PolydivmodIsTheDivision := by
  intro n p hp
  refine ⟨polydivmod_of_lt, polydivmod_reduce hp, bitlen_reduce_lt hp, divmod_eq hp n, (toPoly_polydivmod hp n).2,
    fun c d => eq_polydivmod hp, ?_, polydivmodLoop_passes hp, rfl, (polyrem_eq_snd hp n).symm⟩
  intro h
  have hsize := bitlen_polydivmod_fst hp h
  omega

theorem polydivmod_one (n : Nat) : polydivmod n 1 = (n, 0) :=
  (eq_polydivmod (by decide) (by rw [clmul_one, Nat.xor_zero]) (by decide)).symm

theorem polydivmod_self {p : Nat} (hp : p ≠ 0) : polydivmod p p = (1, 0) :=
  (eq_polydivmod hp (by rw [clmul_comm, clmul_one, Nat.xor_zero]) (by rwa [bitlen_zero, bitlen_pos])).symm

/-! ### `inv_eea` -/

theorem invEea_fst_lt {p : Nat} (hp : 2 ≤ bitlen p) (a : Nat) : (invEea a p).1 < 2 ^ (bitlen p - 1) := by
  have hlen := bitlen_invEea_inverse hp a
  rw [← bitlen_le_iff]
  omega

/-- Settles O17: the candidate inverse is shorter than p, and the gcd no longer. -/
theorem invEeaSizes : Obligations.InvEeaSizes := by
  intro a p hp
  have hp0 := ne_zero_of_two_le_bitlen hp
  exact ⟨bitlen_le_iff.1 (bitlen_invEea_inverse hp a).le, bitlen_le_iff.1 (bitlen_invEea_gcd hp0 a).2,
    fun _ => invEea_fst_lt hp a, fun extra => invEeaLoop_more (bitlen p) extra a p 1 0 hp0 le_rfl⟩

/-! ### The fields of the table -/

theorem mult_mult_mult_comm {p : Nat} (hp : p ≠ 0) (a b c d : Nat) :
    mult (mult a b p) (mult c d p) p = mult (mult a c p) (mult b d p) p := by
  rw [mult_assoc hp, ← mult_assoc hp b, mult_comm b c, mult_assoc hp c, ← mult_assoc hp a]

section field
variable {m : Nat} (h1 : 1 ≤ m) (h2 : m ≤ 24)
include h1 h2

theorem polyrem_irred_ne_zero {a : Nat} (h0 : a ≠ 0) (ha : a < 2 ^ m) : polyrem a (Machine.irred m) ≠ 0 := by
  rwa [polyrem_of_lt ((Machine.valid_iff h1 h2 a).2 ha)]

theorem invEea_fst_ne_zero {a : Nat} (h : polyrem a (Machine.irred m) ≠ 0) : (invEea a (Machine.irred m)).1 ≠ 0 := by
  obtain ⟨-, -, hinv⟩ := Machine.invEea_of_not_dvd h1 h2 h
  intro hzero
  rw [hzero, mult_zero] at hinv
  cases hinv

theorem invEea_one : (invEea 1 (Machine.irred m)).1 = 1 := by
  refine (Machine.eq_invEea h1 h2 (Nat.one_lt_two_pow (by omega)) ?_).symm
  rw [mult_one, one_polyrem (two_le_bitlen_irred h1 h2)]

/-- The operand may be reduced first. -/
theorem invEea_fst_polyrem {a : Nat} (h : polyrem a (Machine.irred m) ≠ 0) :
    (invEea a (Machine.irred m)).1 = (invEea (polyrem a (Machine.irred m)) (Machine.irred m)).1 := by
  obtain ⟨-, hvalid, hinv⟩ := Machine.invEea_of_not_dvd h1 h2 h
  refine Machine.eq_invEea h1 h2 hvalid ?_
  rw [polyrem_mult (Machine.irred_ne h1 h2), hinv]

theorem invEea_invEea {a : Nat} (h0 : a ≠ 0) (ha : a < 2 ^ m) :
    (invEea (invEea a (Machine.irred m)).1 (Machine.irred m)).1 = a := by
  obtain ⟨-, -, hinv⟩ := Machine.invEea_of_not_dvd h1 h2 (polyrem_irred_ne_zero h1 h2 h0 ha)
  rw [mult_comm] at hinv
  exact (Machine.eq_invEea h1 h2 ha hinv).symm

/-- A product of two inverses is the inverse of the product. -/
theorem invEea_mult {a b : Nat} (ha : polyrem a (Machine.irred m) ≠ 0) (hb : polyrem b (Machine.irred m) ≠ 0) :
    (invEea (mult a b (Machine.irred m)) (Machine.irred m)).1 =
      mult (invEea a (Machine.irred m)).1 (invEea b (Machine.irred m)).1 (Machine.irred m) := by
  have hp := Machine.irred_ne h1 h2
  obtain ⟨-, -, hinva⟩ := Machine.invEea_of_not_dvd h1 h2 ha
  obtain ⟨-, -, hinvb⟩ := Machine.invEea_of_not_dvd h1 h2 hb
  have hlt := mult_lt hp (invEea a (Machine.irred m)).1 (invEea b (Machine.irred m)).1
  rw [Machine.bitlen_irred h1 h2] at hlt
  refine (Machine.eq_invEea h1 h2 hlt ?_).symm
  rw [mult_mult_mult_comm hp, hinva, hinvb, mult_one, one_polyrem (two_le_bitlen_irred h1 h2)]

end field

/-- Settles O36: each law by the uniqueness of the inverse. -/
theorem invLaws : Obligations.InvLaws := by
  intro m h1 h2
  refine ⟨?_, invEea_one h1 h2, Machine.invEea_of_dvd h1 h2 (zero_polyrem _), fun a => invEea_fst_polyrem h1 h2⟩
  intro a h0 ha
  have hrem := polyrem_irred_ne_zero h1 h2 h0 ha
  obtain ⟨-, hvalid, hinv⟩ := Machine.invEea_of_not_dvd h1 h2 hrem
  exact ⟨hinv, hvalid, invEea_fst_ne_zero h1 h2 hrem, invEea_invEea h1 h2 h0 ha,
    fun b hb0 hb => invEea_mult h1 h2 hrem (polyrem_irred_ne_zero h1 h2 hb0 hb)⟩

end Sys2Proof.Gf2
end

section
/-! PDIV and PREM (spec/44_division_inverse.md R151, R152). -/

namespace Sys2Proof.Machine

open Sys2Proof.Gf2

/-! ### PDIV -/

theorem encode_pdiv (rd rs1 rs2 : Reg) :
    encode (.pdiv rd rs1 rs2) =
      BitVec.ofNat 32 (0x24000000 ||| (rd.val <<< 20) ||| (rs1.val <<< 16) ||| (rs2.val <<< 12)) :=
  packFields_r3 0x24 rd rs1 rs2

theorem exec_pdiv_by_zero {s : State} {rs2 : Reg} (h : readReg s rs2 = 0) (rd rs1 : Reg) :
    exec (.pdiv rd rs1 rs2) s = .next (raise .divideByZero s) := by
  simp only [exec, execPdiv, withDivisor_zero h]

/-- Settles O32, by whether the divisor is 0. -/
theorem pdivWritesTheQuotient : Obligations.PdivWritesTheQuotient := by
  intro rd rs1 rs2 s
  refine ⟨encode_pdiv rd rs1 rs2, fun h0 => exec_pdiv_by_zero h0 rd rs1, ?_, encode_pdiv 3 1 2⟩
  intro h0
  have hp : (readReg s rs2).toNat ≠ 0 := mt toNat_eq_zero.1 h0
  have hvalue := ofNat_toNat_lt (quot_lt (readReg s rs1) hp)
  refine ⟨_, hvalue, exec_pdiv h0 rd rs1, ?_, ?_, ?_, ?_, ?_⟩
  · intro hshort
    rw [polydivmod_of_lt hshort]
    rfl
  · intro hone
    apply BitVec.eq_of_toNat_eq
    rw [hvalue, hone]
    exact congrArg Prod.fst (polydivmod_one _)
  · intro hsame
    rw [hsame, polydivmod_self hp]
    rfl
  all_goals
    intro h1 h2
    rw [h1, h2]
    decide

/-! ### PREM -/

theorem encode_prem (rd rs1 rs2 : Reg) :
    encode (.prem rd rs1 rs2) =
      BitVec.ofNat 32 (0x25000000 ||| (rd.val <<< 20) ||| (rs1.val <<< 16) ||| (rs2.val <<< 12)) :=
  packFields_r3 0x25 rd rs1 rs2

theorem exec_prem_by_zero {s : State} {rs2 : Reg} (h : readReg s rs2 = 0) (rd rs1 : Reg) :
    exec (.prem rd rs1 rs2) s = .next (raise .divideByZero s) := by
  simp only [exec, execPrem, withDivisor_zero h]

/-- Settles O33, by whether the divisor is 0. -/
theorem premWritesTheRemainder : Obligations.PremWritesTheRemainder := by
  intro rd rs1 rs2 s
  refine ⟨encode_prem rd rs1 rs2, fun h0 => exec_prem_by_zero h0 rd rs1, ?_, encode_prem 3 1 2⟩
  intro h0
  have hp : (readReg s rs2).toNat ≠ 0 := mt toNat_eq_zero.1 h0
  have hvalue := ofNat_toNat_lt (rem_lt (readReg s rs1) (readReg s rs2) hp)
  refine ⟨_, hvalue, ?_, exec_prem h0 rd rs1, ?_, ?_, ?_, ?_, ?_, ?_⟩
  · rw [hvalue]
    exact (toPoly_polydivmod hp _).2
  · intro hshort
    apply BitVec.eq_of_toNat_eq
    rw [hvalue, polydivmod_of_lt hshort]
  · intro hone
    rw [hone]
    exact congrArg (fun cd => BitVec.ofNat 32 cd.2) (polydivmod_one _)
  · intro hsame
    rw [hsame, polydivmod_self hp]
    rfl
  · intro _ _ hmodulus
    rw [hvalue, ← polyrem_eq_snd hp, hmodulus, Nat.zero_mul, Nat.zero_add]
  all_goals
    intro h1 h2
    rw [h1, h2]
    decide

end Sys2Proof.Machine
end

section
/-! INV (spec/44_division_inverse.md R154, R156; 60_exceptions.md R178). -/

namespace Sys2Proof.Machine

open Sys2Proof.Gf2

theorem encode_inv (rd rs1 : Reg) :
    encode (.inv rd rs1) = BitVec.ofNat 32 (0x13000000 ||| (rd.val <<< 20) ||| (rs1.val <<< 16)) :=
  packFields_r2 0x13 rd rs1

theorem exec_inv_without_field {s : State} (h : s.fv = false) (rd rs1 : Reg) :
    exec (.inv rd rs1) s = .next (raise .noField s) := by
  simp only [exec, execInv, withField_of_none h]

theorem ofNat25_eq_one_iff {g : Nat} (h : g < 2 ^ 25) : BitVec.ofNat 25 g = 1 ↔ g = 1 := by
  rw [← BitVec.toNat_inj, BitVec.toNat_ofNat, Nat.mod_eq_of_lt h]
  rfl

/-- `DI` as a test of the gcd that `GCD` holds. -/
theorem degenerateFlag_eq_decide {g : Nat} (h : g < 2 ^ 25) : degenerateFlag g = decide (BitVec.ofNat 25 g ≠ 1) := by
  rw [degenerateFlag, Bool.eq_iff_iff, bne_iff_ne, decide_eq_true_iff]
  exact not_congr (ofNat25_eq_one_iff h).symm

/-- The two components of `inv_eea` as the values INV writes (R154). -/
theorem exec_inv_writes {s : State} (hfv : s.fv = true) (rd rs1 : Reg) :
    exec (.inv rd rs1) s = .next { s with
      x := s.x.set rd (BitVec.ofNat 32 (invEea (readReg s rs1).toNat s.modulus.toNat).1),
      gcd := BitVec.ofNat 25 (invEea (readReg s rs1).toNat s.modulus.toNat).2, err := .ok,
      di := decide (BitVec.ofNat 25 (invEea (readReg s rs1).toNat s.modulus.toNat).2 ≠ 1) } := by
  rw [exec_inv hfv, ← degenerateFlag_eq_decide (invEea_gcd_lt s _)]
  rfl

section field
variable {s : State} (hfv : s.fv = true) (hok : FieldRecordOk s)
include hfv hok

/-- The candidate inverse is a valid element. -/
theorem invEea_fst_lt_order (a : Nat) : (invEea a s.modulus.toNat).1 < s.order.toNat := by
  obtain ⟨-, hmodulus, horder, hdegree, -⟩ := field_facts hfv hok
  have hlt := invEea_fst_lt (show 2 ≤ bitlen s.modulus.toNat by omega) a
  rwa [hmodulus, Nat.add_sub_cancel, ← horder] at hlt

/-- The candidate inverse fits its register. -/
theorem ofNat_invEea_fst_toNat (a : Nat) :
    (BitVec.ofNat 32 (invEea a s.modulus.toNat).1).toNat = (invEea a s.modulus.toNat).1 := by
  have hlt := invEea_fst_lt_order hfv hok a
  exact ofNat_toNat_lt (by omega)

theorem invEea_modulus_of_dvd {a : Nat} (h : polyrem a s.modulus.toNat = 0) :
    invEea a s.modulus.toNat = (0, s.modulus.toNat) := by
  obtain ⟨-, -, -, hdegree, hmax, hirred, -⟩ := field_facts hfv hok
  rw [hirred] at h ⊢
  exact invEea_of_dvd hdegree hmax h

theorem invEea_modulus_of_not_dvd {a : Nat} (h : polyrem a s.modulus.toNat ≠ 0) :
    (invEea a s.modulus.toNat).2 = 1 ∧ mult a (invEea a s.modulus.toNat).1 s.modulus.toNat = 1 ∧
      (invEea a s.modulus.toNat).1 = (invEea (polyrem a s.modulus.toNat) s.modulus.toNat).1 := by
  obtain ⟨-, -, -, hdegree, hmax, hirred, -⟩ := field_facts hfv hok
  rw [hirred] at h ⊢
  obtain ⟨hgcd, -, hinv⟩ := invEea_of_not_dvd hdegree hmax h
  exact ⟨hgcd, hinv, invEea_fst_polyrem hdegree hmax h⟩

theorem invEea_modulus_one : invEea 1 s.modulus.toNat = (1, 1) := by
  obtain ⟨-, hmodulus, -, hdegree, hmax, hirred, -⟩ := field_facts hfv hok
  have hrem : polyrem 1 s.modulus.toNat = 1 := one_polyrem (by omega)
  obtain ⟨hgcd, -⟩ := invEea_modulus_of_not_dvd hfv hok (a := 1) (by rw [hrem]; decide)
  refine Prod.ext ?_ hgcd
  rw [hirred]
  exact invEea_one hdegree hmax

/-- The degree of the modulus is positive, so `GCD = MODULUS` is flagged. -/
theorem modulus_toNat_ne_one : s.modulus.toNat ≠ 1 := by
  obtain ⟨-, hmodulus, -, hdegree, -⟩ := field_facts hfv hok
  intro hone
  have hlen : bitlen s.modulus.toNat = 1 := by
    rw [hone]
    rfl
  omega

end field

theorem ofNat_toNat_modulus (s : State) : BitVec.ofNat 25 s.modulus.toNat = s.modulus :=
  (BitVec.ofNat_toNat 25 _).trans (BitVec.setWidth_eq _)

theorem readReg_completeInv_same (rd : Reg) (vg : Nat × Nat) (s : State) :
    readReg (completeInv rd vg s) rd = BitVec.ofNat 32 vg.1 := by
  rw [completeInv, readReg_succeed, readReg_writeGcd, readReg_writeReg_same]

/-- Settles O34: by the value of `FV`, and in a field by whether the modulus divides the operand. -/
theorem invWritesInverseGcdAndFlag : Obligations.InvWritesInverseGcdAndFlag := by
  intro rd rs1 s
  refine ⟨encode_inv rd rs1, fun hfv => exec_inv_without_field hfv rd rs1, ?_, encode_inv 2 1⟩
  intro hfv hok
  have horder := invEea_fst_lt_order hfv hok (readReg s rs1).toNat
  have hv := ofNat_invEea_fst_toNat hfv hok (readReg s rs1).toNat
  have hg := completeInv_gcd_toNat rd (readReg s rs1).toNat s
  rw [completeInv_gcd] at hg
  refine ⟨_, _, hv, hg, ?_, exec_inv_writes hfv rd rs1, ?_, ?_, ?_, ?_, ?_⟩
  · rw [hv]
    omega
  · intro hdvd
    rw [invEea_modulus_of_dvd hfv hok hdvd]
    exact ⟨rfl, ofNat_toNat_modulus s⟩
  · intro hone
    rw [hone]
    have hpair := invEea_modulus_one hfv hok
    exact ⟨congrArg (fun vg => BitVec.ofNat 32 vg.1) hpair, congrArg (fun vg => BitVec.ofNat 25 vg.2) hpair⟩
  · intro hrem
    obtain ⟨hgcd, -, hreduced⟩ := invEea_modulus_of_not_dvd hfv hok hrem
    exact ⟨(ofNat25_eq_one_iff (invEea_gcd_lt s _)).2 hgcd, hv.trans hreduced⟩
  all_goals
    intro h4 h1
    rw [modulus_of_degree_four hok hfv h4, h1]
    decide

/-- Settles O35, by whether the modulus divides the operand. -/
theorem invInvertsOrFlags : Obligations.InvInvertsOrFlags := by
  intro rd rs1 s hfv hok
  refine ⟨_, exec_inv hfv rd rs1, rfl, ?_, ?_⟩
  · intro hrem
    obtain ⟨hgcd, hinv, -⟩ := invEea_modulus_of_not_dvd hfv hok hrem
    rw [readReg_completeInv_same, ofNat_invEea_fst_toNat hfv hok, completeInv_gcd, completeInv_di, hgcd]
    exact ⟨invEea_fst_lt_order hfv hok _, rfl, rfl, hinv⟩
  · intro hdvd
    rw [readReg_completeInv_same, completeInv_gcd, completeInv_di, invEea_modulus_of_dvd hfv hok hdvd]
    exact ⟨rfl, ofNat_toNat_modulus s, bne_iff_ne.2 (modulus_toNat_ne_one hfv hok)⟩

end Sys2Proof.Machine
end

section
/-! Errors (spec/60_exceptions.md R170 to R174): what a command may change, what an error leaves, and the priority among the
errors. -/

namespace Sys2Proof.Machine

/-- Settles O39, by what a command can do: an error writes no register, SETDEG none either, every other end one. -/
theorem onlyTheDestinationIsWritten : Obligations.OnlyTheDestinationIsWritten := by
  intro i s t h
  refine ⟨fun r hr => ?_, exec_host h⟩
  cases effect_of_exec h with
  | raised e he => exact readReg_raise e s r
  | wrote rd v hd => exact readReg_complete_other (fun hrd : r = rd => hr (hrd ▸ hd)) v s
  | inverted rd rs1 hi hf =>
    have hrd : r ≠ rd := fun hrd => hr (by rw [hi, hrd]; rfl)
    rw [completeInv, readReg_succeed, readReg_writeGcd, readReg_writeReg_other hrd]
  | built m hi h1 h2 => rw [readReg_succeed, readReg_buildField]

/-- A command that ends with an error did nothing but raise it (R174). -/
theorem exec_eq_raise {i : Instr} {s t : State} (h : exec i s = .next t) (herr : t.err ≠ .ok) : t = raise t.err s := by
  cases effect_of_exec h with
  | raised e he => rfl
  | wrote rd v hd => exact absurd (complete_err rd v s) herr
  | inverted rd rs1 hi hf => exact absurd (completeInv_err rd _ s) herr
  | built m hi h1 h2 => exact absurd (succeed_err false _) herr

theorem runCommand_eq_raise {w : Word} {s t : State} (h : runCommand w s = .next t) (herr : t.err ≠ .ok) :
    t = raise t.err s := by
  rcases runCommand_cases h with ⟨i, -, he⟩ | ⟨why, -, rfl⟩
  · exact exec_eq_raise he herr
  · rfl

/-- Settles O37: an error is raised and nothing else, the write is answered when its command has ended, and no command looks
at the status of the one before. -/
theorem errorsArePrecise : Obligations.ErrorsArePrecise := by
  refine ⟨fun w s t => runCommand_eq_raise, fun w s t rest h => ?_, fun w s e d => ?_⟩
  · refine (step_deliver_eq w s rest).trans ?_
    rw [h]
    rfl
  · obtain ⟨t, ht⟩ := runCommand_next w s
    exact ⟨t, ht, by rw [runCommand_overwrites_status, ht]⟩

theorem step_memWrite_of_not_legal {off : Fin 256} {n v : Nat} (h : ¬ LegalTransaction (.memWrite off n v)) (s : State)
    (rest : List HostAction) :
    step { s with pending := .memWrite off n v :: rest } =
      .next { s with pending := rest, responses := s.responses ++ [.busError] } :=
  busWrite_of_not_legal h { s with pending := rest }

/-- The one legal write that touches the bytes of the `CMD` word (R52, R56). -/
theorem legal_write_in_cmd_word {off : Fin 256} {n v : Nat} (hlow : 0x40 ≤ off.val)
    (h : LegalTransaction (.memWrite off n v)) : off = 0x40 ∧ n = 4 := by
  obtain ⟨hn, -, hhigh⟩ := h
  exact ⟨Fin.ext (Nat.le_antisymm hhigh hlow), hn⟩

/-- Settles O38: the error of a command is the one `exec_err` names; without a field that is `NO_FIELD` for every POW. -/
theorem errorsFollowThePriority : Obligations.ErrorsFollowThePriority := by
  refine ⟨⟨rfl, rfl, rfl, rfl, rfl, rfl, errCode_toNat_le⟩, fun i s t => exec_err, fun i w s h => runCommand_of_cmd h s,
    ?_, ?_, ?_⟩
  · intro s off n v rest hlow _ hnot
    exact step_memWrite_of_not_legal (mt (legal_write_in_cmd_word hlow) hnot) s rest
  · intro rd rs1 rs2 s hfv _
    exact ⟨_, exec_pow_without_field hfv rd rs1 rs2, rfl⟩
  · intro w s t why hd h
    rw [runCommand_of_illegal hd] at h
    cases h
    rfl

end Sys2Proof.Machine
end

section
/-! Programs of the host that do not look at what they read (spec/60_exceptions.md R186; log 9). -/

namespace Sys2Proof.Machine

/-- From this point of a run on the program gives the actions of the list in order and then ends, whatever the responses
say: an action adds one response, a reset none (log 8). -/
def GivesList (program : HostProgram) : List HostAction → Nat → List Response → Prop
  | [], taken, seen => program taken seen = none
  | a :: rest, taken, seen =>
    program taken seen = some a ∧
      ∀ new : List Response, new.length = (if a = .reset then 0 else 1) → GivesList program rest (taken + 1) (seen ++ new)

/-- The first action of the list, served alone and served before the others. -/
theorem step_alone_and_first (a : HostAction) (s : State) :
    ∃ (t : State) (new : List Response), t.responses = s.responses ++ new ∧ new.length = (if a = .reset then 0 else 1) ∧
      ∀ rest, step { s with pending := a :: rest } = .next { t with pending := rest } := by
  obtain ⟨t, ht⟩ := step_first a s
  obtain ⟨-, new, hresp, hlen⟩ := serve_host ((step_cons rfl).symm.trans (ht []))
  exact ⟨t, new, hresp, hlen, ht⟩

/-- The run of a program that gives a list is the run of the list, by induction on the list. -/
theorem runProgram_eq_run {program : HostProgram} (actions : List HostAction) :
    ∀ (taken : Nat) (s : State), s.pending = [] → GivesList program actions taken s.responses →
      runProgram program (actions.length + 1) taken s = Host.Core.run core actions.length { s with pending := actions } := by
  induction actions with
  | nil =>
    intro taken s hp hgives
    have hidle : { s with pending := [] } = s := hp ▸ rfl
    rw [hidle]
    exact runProgram_none hgives _
  | cons a rest ih =>
    intro taken s hp hgives
    obtain ⟨hnext, hgives⟩ := hgives
    obtain ⟨t, new, hresp, hlen, hstep⟩ := step_alone_and_first a s
    have hrest : GivesList program rest (taken + 1) t.responses := hresp ▸ hgives new hlen
    rw [List.length_cons, runProgram_some hnext (hstep []), run_succ _ (hstep rest)]
    exact ih (taken + 1) { t with pending := [] } rfl hrest

/-- What is left of a list from place `k` on gives the entry at `k` and what is left after it. -/
theorem getElem?_and_drop_of_drop_eq_cons {α : Type} {l rest : List α} {a : α} {k : Nat} (h : l.drop k = a :: rest) :
    l[k]? = some a ∧ l.drop (k + 1) = rest := by
  rw [← List.head?_drop, ← List.tail_drop, h]
  exact ⟨rfl, rfl⟩

/-- A program that counts the actions it has taken gives what is left of its list. -/
theorem givesList_by_taken {actions : List HostAction} (left : List HostAction) :
    ∀ (taken : Nat) (seen : List Response), actions.drop taken = left →
      GivesList (fun taken _ => actions[taken]?) left taken seen := by
  induction left with
  | nil => exact fun taken _ h => List.getElem?_eq_none (List.drop_eq_nil_iff.1 h)
  | cons a rest ih =>
    intro taken seen h
    obtain ⟨hnext, hrest⟩ := getElem?_and_drop_of_drop_eq_cons h
    exact ⟨hnext, fun new _ => ih _ _ hrest⟩

/-- A program that counts the responses after the first `before` gives what is left of its list, where no reset is left. -/
theorem givesList_by_responses {actions : List HostAction} {before : Nat} (left : List HostAction)
    (hleft : ∀ a ∈ left, a ≠ .reset) :
    ∀ (taken : Nat) (seen : List Response), before ≤ seen.length → actions.drop (seen.length - before) = left →
      GivesList (fun _ seen => actions[seen.length - before]?) left taken seen := by
  induction left with
  | nil => exact fun _ seen _ h => List.getElem?_eq_none (List.drop_eq_nil_iff.1 h)
  | cons a rest ih =>
    intro taken seen hseen h
    obtain ⟨ha, hrest⟩ := List.forall_mem_cons.1 hleft
    obtain ⟨hnext, hdrop⟩ := getElem?_and_drop_of_drop_eq_cons h
    refine ⟨hnext, fun new hnew => ih hrest _ _ ?_ ?_⟩
    · rw [List.length_append]
      omega
    · rw [if_neg ha] at hnew
      rw [List.length_append, hnew, Nat.sub_add_comm hseen, hdrop]

/-- Settles O56: both programs give the list from its first action on. -/
theorem programsOfAFixedListRunTheList : Obligations.ProgramsOfAFixedListRunTheList := by
  refine ⟨fun actions s hp => ?_, fun actions s hreset hp => ?_⟩
  · exact runProgram_eq_run actions 0 s hp (givesList_by_taken actions 0 s.responses rfl)
  · refine runProgram_eq_run actions 0 s hp (givesList_by_responses actions hreset 0 s.responses le_rfl ?_)
    rw [Nat.sub_self, List.drop_zero]

end Sys2Proof.Machine
end

section
/-! Reset, termination and whole runs (spec/70_reset_and_hazards.md R200, R204, R207). -/

namespace Sys2Proof.Machine

/-- Every step answers a next state: an idle block keeps its state, and every action is served to its end. -/
theorem step_next (s : State) : ∃ t, step s = .next t := by
  cases hp : s.pending with
  | nil => exact ⟨s, step_nil hp⟩
  | cons a rest =>
    obtain ⟨t, ht, -⟩ := serve_served a { s with pending := rest }
    exact ⟨t, (step_cons hp).trans ht⟩

/-- Settles O9: a command by what it can do, a step by what it serves. -/
theorem everyCommandAndStepEnds : Obligations.EveryCommandAndStepEnds := by
  refine ⟨fun i s => ?_, step_next⟩
  obtain ⟨t, ht, -⟩ := exec_effect i s
  exact ⟨t, ht⟩

/-- Settles O46: serving a reset replaces the block and keeps the host's side. -/
theorem resetReplacesEveryState : Obligations.ResetReplacesEveryState := by
  intro s rest
  calc step { s with pending := .reset :: rest }
      _ = serve .reset { s with pending := rest } := step_cons rfl
      _ = .next (resetBlock { s with pending := rest }) := rfl

/-- The transactions of a list: the first action counts unless it is a reset. -/
theorem length_filter_ne_reset_cons (a : HostAction) (rest : List HostAction) :
    ((a :: rest).filter fun b => decide (b ≠ .reset)).length =
      (if a = .reset then 0 else 1) + (rest.filter fun b => decide (b ≠ .reset)).length := by
  by_cases ha : a = .reset
  · simp [ha]
  · simp [ha, Nat.add_comm]

/-- Settles O54, by induction on the list: the first action adds its response, if it has one, before those of the rest. -/
theorem runsServeTheWholeList : Obligations.RunsServeTheWholeList := by
  intro actions
  induction actions with
  | nil => exact fun s => ⟨{ s with pending := [] }, [], rfl, rfl, (List.append_nil _).symm, rfl⟩
  | cons a rest ih =>
    intro s
    obtain ⟨u, first, hfirst, hfirstLen, hstep⟩ := step_alone_and_first a s
    obtain ⟨t, later, hrun, hdone, hlater, hlaterLen⟩ := ih u
    refine ⟨t, first ++ later, ?_, hdone, ?_, ?_⟩
    · rw [List.length_cons, run_succ _ (hstep rest), hrun]
    · rw [hlater, hfirst, List.append_assoc]
    · rw [List.length_append, hfirstLen, hlaterLen, length_filter_ne_reset_cons]

end Sys2Proof.Machine
end

section
/-! The words of the vectors as encodings of their commands (spec/95_test_vectors.md section 2.1). -/

namespace Sys2Proof

/-- The word of a well-formed command decodes to it (R92). -/
theorem decode_eq_of_encode_eq {w : Word} {i : Instr} (hwf : i.WellFormed) (hw : encode i = w) : decode w = .cmd i :=
  hw ▸ decodeInvertsEncode i hwf

/-- Settles O6: each word is the encoding of its command, and decoding inverts encoding. -/
theorem sampleWordsDecode : Obligations.SampleWordsDecode := by
  have himm : (Instr.setdeg 24).WellFormed := show 24 < 4096 by decide
  refine ⟨?setdeg, ?add, ?mul, ?inv, ?bitlen, ?prem⟩
  case setdeg => exact decode_eq_of_encode_eq himm rfl
  all_goals exact decode_eq_of_encode_eq trivial rfl

end Sys2Proof
end
